-- ==== Sys2Proof/Syntax.lean ====
section
/-!
DEFINITION. The ten commands of 30_encoding.md R52, one constructor per row of spec/opcode_table.json.
-/
namespace Sys2Proof

/-- A command as its command word selects it. The operand `n` is the 4-bit field read as a number 0 to 15 (R8, R53).
The data operand `DIN` is not part of the command word (R50); it stands in the machine's state. -/
inductive Instr where
  /-- `LDKEY n`: load the key of round n (R83). -/
  | ldkey (n : Nat)
  /-- `INVRK`: invert one round (R84). -/
  | invrk
  /-- `INVALL`: invert down to round 0 (R85). -/
  | invall
  /-- `RDSCH n`: read schedule position n (R90). -/
  | rdsch (n : Nat)
  /-- `RDLAST`: read the current key (R91). -/
  | rdlast
  /-- `STAT`: read the status registers (R92). -/
  | stat
  /-- `ROTW`: rotate a word (R75). -/
  | rotw
  /-- `SUBW`: substitute a word (R76). -/
  | subw
  /-- `ADDRC n`: add the round constant of round n (R77). -/
  | addrc (n : Nat)
  /-- `GWORD n`: the key-expansion function of round n (R78). -/
  | gword (n : Nat)
  deriving DecidableEq, Repr

end Sys2Proof
end

