-- ==== Sys2Proof/WellFormed.lean ====
section
/-!
DEFINITION. Which terms of `Instr` are commands of the block: the operand must fit its 4-bit field (30_encoding.md R50,
R53). A round operand outside its legal range is still a well-formed command; executing it faults (R58).
-/
namespace Sys2Proof

/-- The operand fits the field `n` = command word bits [3:0] (R53). -/
abbrev OperandFits (n : Nat) : Prop := n ≤ 15

/-- The command can be written as a command word (R50, R52). -/
def Instr.WellFormed : Instr → Prop
  | .ldkey n => OperandFits n
  | .invrk => True
  | .invall => True
  | .rdsch n => OperandFits n
  | .rdlast => True
  | .stat => True
  | .rotw => True
  | .subw => True
  | .addrc n => OperandFits n
  | .gword n => OperandFits n

/-- The check as a computation. -/
def Instr.wellFormed : Instr → Bool
  | .ldkey n => n ≤ 15
  | .invrk => true
  | .invall => true
  | .rdsch n => n ≤ 15
  | .rdlast => true
  | .stat => true
  | .rotw => true
  | .subw => true
  | .addrc n => n ≤ 15
  | .gword n => n ≤ 15

/-- The computed check decides well-formedness. -/
theorem Instr.wellFormed_iff (i : Instr) : i.wellFormed = true ↔ i.WellFormed := by
  cases i <;> simp [Instr.wellFormed, Instr.WellFormed]

end Sys2Proof
end

