-- ==== Sys2Proof/Decode.lean ====
section
/-!
DEFINITION. Decoding a command word (30_encoding.md R50 to R60), total on all 256 words, and the encoder beside it.
The decoder looks at the command word alone (R60). Round operands out of range decode: they fault when executed (R58).
-/
namespace Sys2Proof

/-- Why a command word selects no command. Both reasons are the spec's fault `ILLEGAL_CMD` (R56, R57, R102). -/
inductive DecodeError where
  /-- The opcode is 0x0, 0x7, 0xC, 0xD, 0xE or 0xF (R56). -/
  | reservedOpcode
  /-- The operand field must be 0 and is not (R57). -/
  | nonzeroOperand
  deriving DecidableEq, Repr

/-- What the decoder makes of a command word (R59): a command, or the reason why it selects none. -/
inductive Decoded where
  | command (i : Instr)
  | illegal (e : DecodeError)
  deriving DecidableEq, Repr

/-- The opcode, command word bits [7:4] (R50). -/
def opcodeField (cmd : BitVec 8) : Nat := (cmd.extractLsb' 4 4).toNat

/-- The operand, command word bits [3:0], as an unsigned number (R50, R53). -/
def operandField (cmd : BitVec 8) : Nat := (cmd.extractLsb' 0 4).toNat

/-- A command whose operand field must be 0: any other value selects no command (R57). -/
def mustBeZero (n : Nat) (i : Instr) : Decoded :=
  if n = 0 then .command i else .illegal .nonzeroOperand

/-- The command a command word selects (R52), or why it selects none (R56, R57). -/
def decode (cmd : BitVec 8) : Decoded :=
  match opcodeField cmd with
  | 0x1 => .command (.ldkey (operandField cmd))
  | 0x2 => mustBeZero (operandField cmd) .invrk
  | 0x3 => mustBeZero (operandField cmd) .invall
  | 0x4 => .command (.rdsch (operandField cmd))
  | 0x5 => mustBeZero (operandField cmd) .rdlast
  | 0x6 => mustBeZero (operandField cmd) .stat
  | 0x8 => mustBeZero (operandField cmd) .rotw
  | 0x9 => mustBeZero (operandField cmd) .subw
  | 0xA => .command (.addrc (operandField cmd))
  | 0xB => .command (.gword (operandField cmd))
  | _ => .illegal .reservedOpcode

/-- A command word from its two fields (R50): `opc` in bits [7:4], `n` in bits [3:0]. -/
def commandWord (opc : BitVec 4) (n : Nat) : BitVec 8 := opc ++ BitVec.ofNat 4 n

/-- The command word of a well-formed command, from the table of R52. -/
def encode : Instr → BitVec 8
  | .ldkey n => commandWord 0x1 n
  | .invrk => commandWord 0x2 0
  | .invall => commandWord 0x3 0
  | .rdsch n => commandWord 0x4 n
  | .rdlast => commandWord 0x5 0
  | .stat => commandWord 0x6 0
  | .rotw => commandWord 0x8 0
  | .subw => commandWord 0x9 0
  | .addrc n => commandWord 0xA n
  | .gword n => commandWord 0xB n

/-- The decoder on a word numbered as spec/opcode_table.json numbers it: `nbits` bits of `w`, the bits above them 0.
A command word is 8 bits, the whole instruction (R50). -/
def decodeTableWord (nbits w : Nat) : Option Instr :=
  match decode (BitVec.ofNat 8 (w % 2 ^ nbits)) with
  | .command i => some i
  | .illegal _ => none

/-- The mask of a command's row in spec/opcode_table.json. -/
def rowMask : Instr → BitVec 8
  | .ldkey _ => 0xF0
  | .invrk => 0xFF
  | .invall => 0xFF
  | .rdsch _ => 0xF0
  | .rdlast => 0xFF
  | .stat => 0xFF
  | .rotw => 0xFF
  | .subw => 0xFF
  | .addrc _ => 0xF0
  | .gword _ => 0xF0

/-- The match pattern of a command's row in spec/opcode_table.json. -/
def rowMatch : Instr → BitVec 8
  | .ldkey _ => 0x10
  | .invrk => 0x20
  | .invall => 0x30
  | .rdsch _ => 0x40
  | .rdlast => 0x50
  | .stat => 0x60
  | .rotw => 0x80
  | .subw => 0x90
  | .addrc _ => 0xA0
  | .gword _ => 0xB0

/-- A command word selects a command's row when `c & mask = match` (R59). -/
abbrev SelectsRow (cmd : BitVec 8) (i : Instr) : Prop := cmd &&& rowMask i = rowMatch i

/-- One command of each row of spec/opcode_table.json, in the table's order. -/
def tableRows : List Instr :=
  [.ldkey 0, .invrk, .invall, .rdsch 0, .rdlast, .stat, .rotw, .subw, .addrc 0, .gword 0]

end Sys2Proof
end

