-- ==== Sys2Proof/Word.lean ====
section
/-!
DEFINITION. The value types of the block (00_scope.md R7, 10_state.md R11 and R12): bytes, words of four bytes, keys of
sixteen bytes, round tags and round keys. A word and a key are byte sequences; no rule reads them as numbers.
-/
namespace Sys2Proof

/-- Eight bits, bit 7 the most significant (R7). -/
abbrev Byte := BitVec 8

/-- "an exactly-4-byte sequence", bytes numbered 0 to 3 (R11). -/
@[ext] structure Word where
  b0 : Byte
  b1 : Byte
  b2 : Byte
  b3 : Byte
  deriving DecidableEq, Repr

/-- Sixteen bytes as the four words of R12: word j is bytes 4j to 4j+3. -/
@[ext] structure Key where
  w0 : Word
  w1 : Word
  w2 : Word
  w3 : Word
  deriving DecidableEq, Repr

/-- A round index of a round key, 0 to 10 (R12). -/
abbrev Round := Fin 11

/-- A round index for which the step functions have a value, 1 to 10 (R72, R74, R80; U1). -/
abbrev StepRound := { r : Nat // 1 ≤ r ∧ r ≤ 10 }

/-- "an exactly-16-byte sequence plus an integer round index in [0,10]" (R12). -/
@[ext] structure RoundKey where
  round : Round
  key : Key
  deriving DecidableEq, Repr

/-- Byte i of a word. -/
def Word.byte (w : Word) : Fin 4 → Byte
  | 0 => w.b0
  | 1 => w.b1
  | 2 => w.b2
  | 3 => w.b3

/-- Word j of a key (R7, `word(k, j)`). -/
def Key.word (k : Key) : Fin 4 → Word
  | 0 => k.w0
  | 1 => k.w1
  | 2 => k.w2
  | 3 => k.w3

/-- Byte i of a key: byte `i % 4` of word `i / 4` (R12). -/
def Key.byte (k : Key) (i : Fin 16) : Byte :=
  (k.word ⟨i.val / 4, by omega⟩).byte ⟨i.val % 4, by omega⟩

/-- Four bytes of zero. -/
def Word.zero : Word := ⟨0, 0, 0, 0⟩

/-- Sixteen bytes of zero. -/
def Key.zero : Key := ⟨.zero, .zero, .zero, .zero⟩

end Sys2Proof
end

