-- ==== Sys2Proof/Machine/State.lean ====
section
/-!
DEFINITION. The state of the machine as plain data: the architectural state of 10_state.md R10 (SCHED, LEN, FAULT), the
values on the ports that one transaction needs (00_scope.md R4), the host's side of a run (70_reset_and_hazards.md R127,
R128), and the state of the port-level handshake (R122, R123).
-/
namespace Sys2Proof.Machine

/-- The five synchronous faults (60_exceptions.md R101). -/
inductive FaultCode where
  /-- Code 1: the command word selects no command (R102). -/
  | illegalCmd
  /-- Code 2: a round index in the command word is outside its legal range (R103). -/
  | roundRange
  /-- Code 3: the command needs the current key and LEN = 0 (R104). -/
  | noKey
  /-- Code 4: the current key has round 0 and cannot be inverted (R105). -/
  | roundZero
  /-- Code 5: the schedule position is not a valid slot (R106). -/
  | index
  deriving DecidableEq, Repr

/-- The status of a response: 0 = OK, or a fault (R51, R101). -/
inductive Status where
  | ok
  | raised (c : FaultCode)
  deriving DecidableEq, Repr

/-- A response in the three shapes of 30_encoding.md R51. A field a command does not specify is not there, so that nothing
can depend on it (U7). A response with data has status OK. -/
inductive Response where
  /-- Status only: `respond(OK)` and every fault (R8, R100). -/
  | bare (st : Status)
  /-- Status OK with data: `respond(OK, data)` (R8). -/
  | data (dout : Key)
  /-- Status OK with round tag and data: `respond(OK, r, data)` (R8). -/
  | tagged (rtag : Round) (dout : Key)
  deriving DecidableEq, Repr

/-- What the host can do between commands (R5, R127). -/
inductive HostAction where
  /-- Reset the block (R120). -/
  | reset
  /-- Present a command word with the value on the data-in port (R50). -/
  | command (cmd : BitVec 8) (din : Key)
  deriving DecidableEq, Repr

/-- The state of one block and its host. -/
structure State where
  /-- `SCHED[0..10]`: a slot that holds no value is absent (R13, R14). -/
  sched : Vector (Option RoundKey) 11
  /-- `LEN`, 0 to 11: slots 0 to LEN-1 are valid (R14). -/
  len : Fin 12
  /-- `FAULT`: some command faulted since reset (R19). -/
  fault : Bool
  /-- `DIN`: the value on the data-in port, taken with the command being executed; not architectural state (R20). -/
  din : Key
  /-- The host's actions still to come, oldest first (R21, R128); the MODEL's own field. -/
  host : List HostAction
  /-- The responses given since the last reset, oldest first (R128); the MODEL's own field. -/
  responses : List Response
  deriving DecidableEq, Repr

/-- Reasons for which the MODEL stops. None is a fault of the spec: those are next states (R115). -/
inductive Fault where
  /-- Raised by INVRK, INVALL, RDSCH, RDLAST and STAT in a state that breaks the schedule invariant: a slot below LEN is
  absent, or no slot is free although the current round is at least 1. No reachable state is one (R16, R18), and R25 says
  that a model need not give meaning to other states. Safe: the model stops where the hardware has no such state. -/
  | brokenSchedule
  deriving DecidableEq, Repr

/-- Reasons for which the MODEL gives no meaning. -/
inductive Refusal where
  /-- Raised by an arm of `exec` for an instruction without a meaning; no arm does. Safe. -/
  | notModelled (mnemonic : String)
  /-- Raised by the port-level cycle when reset is asserted while a command is in progress: `RESET_MID_COMMAND` is open and
  the spec's own treatment is to refuse it (R129, U9). Safe: nothing is concluded about such a cycle. -/
  | resetMidCommand
  deriving DecidableEq, Repr

/-- The state after reset (R24, R120): LEN = 0, FAULT = 0, every slot invalid. The fields that are not architectural state
start as log entries 3 and 4 say. -/
def State.reset : State where
  sched := Vector.replicate 11 none
  len := 0
  fault := false
  din := Key.zero
  host := []
  responses := []

/-- The block behind its ports (R122, R123). -/
structure PortState where
  /-- The block, with the transaction-level state. -/
  block : State
  /-- A command is in progress, with this many cycles left until the response cycle (`some 0` is the response cycle);
  `none` when the block can accept a command (R123). -/
  busy : Option Nat
  /-- The number of the cycle, which indexes the free values of unspecified port bits; the MODEL's own field. -/
  cycle : Nat
  deriving DecidableEq, Repr

/-- The input ports in one cycle (R122). -/
structure PortIn where
  rst : Bool
  cmdValid : Bool
  cmd : BitVec 8
  din : BitVec 128
  deriving DecidableEq, Repr

/-- The output ports in one cycle (R122). -/
structure PortOut where
  cmdReady : Bool
  rspValid : Bool
  rspStatus : BitVec 4
  rspRtag : BitVec 4
  dout : BitVec 128
  deriving DecidableEq, Repr

/-- The ports after reset: ready for a command (R120, R123). -/
def PortState.reset : PortState where
  block := State.reset
  busy := none
  cycle := 0

end Sys2Proof.Machine
end

