-- ==== Sys2Proof/Machine/Flags.lean ====
section
/-!
DEFINITION. The one flag, `FAULT` (10_state.md R19), the numbers of the status codes (60_exceptions.md R101) and the layout
of the `STAT` data (42_readout_status.md R92).
-/
namespace Sys2Proof.Machine

/-- `FAULT <- 1` (R100); no command clears it (R110). -/
def setFault (s : State) : State := { s with fault := true }

/-- The number of a fault code (R101). -/
def FaultCode.code : FaultCode → BitVec 4
  | .illegalCmd => 1
  | .roundRange => 2
  | .noKey => 3
  | .roundZero => 4
  | .index => 5

/-- The 4-bit `status` field (R51, R101). -/
def Status.code : Status → BitVec 4
  | .ok => 0
  | .raised c => c.code

/-- The status of a response; one with data is OK (R51). -/
def Response.status : Response → Status
  | .bare st => st
  | .data _ => .ok
  | .tagged _ _ => .ok

/-- The `STAT` data: LEN, current round, FAULT, each zero-extended to a byte, then thirteen bytes of zero (R92). -/
def statData (len : Fin 12) (round : Round) (fault : Bool) : Key :=
  ⟨⟨BitVec.ofNat 8 len.val, BitVec.ofNat 8 round.val, if fault then 1 else 0, 0⟩, .zero, .zero, .zero⟩

end Sys2Proof.Machine
end

