-- ==== Sys2Proof/Machine/Operands.lean ====
section
/-!
DEFINITION. The operand and result forms (30_encoding.md R53 to R55) and the byte positions at the 128-bit data ports
(20_memory.md R39).
-/
namespace Sys2Proof.Machine

/-- The key operand: `DIN[0..15]` (R54). -/
def keyOperand (s : State) : Key := s.din

/-- The word operand: `DIN[0..3]`; `DIN[4..15]` is ignored (R55). -/
def wordOperand (s : State) : Word := s.din.w0

/-- A word result: the word in `DOUT[0..3]` and twelve bytes of zero (R55). -/
def wordResult (w : Word) : Key := ⟨w, .zero, .zero, .zero⟩

/-- Byte i of a 128-bit port value: bits `[127 - 8*i : 120 - 8*i]` (R39). -/
def portByte (v : BitVec 128) (i : Fin 16) : Byte := v.extractLsb' (120 - 8 * i.val) 8

/-- The key on a data port (R39). -/
def keyOfPort (v : BitVec 128) : Key :=
  ⟨⟨portByte v 0, portByte v 1, portByte v 2, portByte v 3⟩,
   ⟨portByte v 4, portByte v 5, portByte v 6, portByte v 7⟩,
   ⟨portByte v 8, portByte v 9, portByte v 10, portByte v 11⟩,
   ⟨portByte v 12, portByte v 13, portByte v 14, portByte v 15⟩⟩

/-- The four bytes of a word, byte 0 most significant, as at port bits [127:96] (R39). -/
def portOfWord (w : Word) : BitVec 32 := w.b0 ++ w.b1 ++ w.b2 ++ w.b3

/-- The port value that carries a key, byte 0 most significant (R39). -/
def portOfKey (k : Key) : BitVec 128 :=
  portOfWord k.w0 ++ portOfWord k.w1 ++ portOfWord k.w2 ++ portOfWord k.w3

end Sys2Proof.Machine
end

