-- ==== Sys2Proof/Config.lean ====
section
/-!
DEFINITION. What the spec leaves to the implementation (00_scope.md R6): the OPEN parameters, as constants without a
body, so that no proof can learn or choose a value of one.
-/
namespace Sys2Proof

/-- `RCON0`, the content of round-constant index 0: "any byte", read by no rule (R35, U3). Log entry 1. -/
opaque Config.rcon0 : Byte

/-- How many cycles more than the least, one, a command other than `INVALL` takes: a function of the command word
alone (R6, R126). Log entry 9. -/
opaque Config.commandLatencyExtra : BitVec 8 → Nat

/-- How many cycles more than one `INVALL` takes: a function of the current round tag, the iteration count (R126). Where there
is no current key and so no tag (R15), the spec says nothing of the number: `none` has a free value of its own, not tied to that
of tag 0. DESIGN CHOICE, log entry 9. -/
opaque Config.invallLatencyExtra : Option Round → Nat

/-- What `rsp_status` carries in a cycle without a response (R123, U13), by cycle. Log entry 8. -/
opaque Config.freeStatus : Nat → BitVec 4

/-- What `rsp_rtag` carries in a cycle in which the response does not specify it (R51, R123, U7, U13), by cycle.
Log entry 8. -/
opaque Config.freeRtag : Nat → BitVec 4

/-- What `dout` carries in a cycle in which the response does not specify it (R51, R123, U7, U13), by cycle.
Log entry 8. -/
opaque Config.freeDout : Nat → BitVec 128

end Sys2Proof
end

