-- ==== Sys2Proof/Machine/Tables.lean ====
section
/-!
DEFINITION. The two read-only tables (20_memory.md R30 to R36), each one named constant so that it can be swapped (G1, G2).
The contents are marked in the spec as general knowledge; log entry 2.
-/
namespace Sys2Proof.Machine

/-- S-box row 0: input bytes 0x00 to 0x0F (R32). -/
def sboxRow0 : List Byte :=
  [0x63, 0x7C, 0x77, 0x7B, 0xF2, 0x6B, 0x6F, 0xC5, 0x30, 0x01, 0x67, 0x2B, 0xFE, 0xD7, 0xAB, 0x76]
/-- S-box row 1: input bytes 0x10 to 0x1F (R32). -/
def sboxRow1 : List Byte :=
  [0xCA, 0x82, 0xC9, 0x7D, 0xFA, 0x59, 0x47, 0xF0, 0xAD, 0xD4, 0xA2, 0xAF, 0x9C, 0xA4, 0x72, 0xC0]
/-- S-box row 2: input bytes 0x20 to 0x2F (R32). -/
def sboxRow2 : List Byte :=
  [0xB7, 0xFD, 0x93, 0x26, 0x36, 0x3F, 0xF7, 0xCC, 0x34, 0xA5, 0xE5, 0xF1, 0x71, 0xD8, 0x31, 0x15]
/-- S-box row 3: input bytes 0x30 to 0x3F (R32). -/
def sboxRow3 : List Byte :=
  [0x04, 0xC7, 0x23, 0xC3, 0x18, 0x96, 0x05, 0x9A, 0x07, 0x12, 0x80, 0xE2, 0xEB, 0x27, 0xB2, 0x75]
/-- S-box row 4: input bytes 0x40 to 0x4F (R32). -/
def sboxRow4 : List Byte :=
  [0x09, 0x83, 0x2C, 0x1A, 0x1B, 0x6E, 0x5A, 0xA0, 0x52, 0x3B, 0xD6, 0xB3, 0x29, 0xE3, 0x2F, 0x84]
/-- S-box row 5: input bytes 0x50 to 0x5F (R32). -/
def sboxRow5 : List Byte :=
  [0x53, 0xD1, 0x00, 0xED, 0x20, 0xFC, 0xB1, 0x5B, 0x6A, 0xCB, 0xBE, 0x39, 0x4A, 0x4C, 0x58, 0xCF]
/-- S-box row 6: input bytes 0x60 to 0x6F (R32). -/
def sboxRow6 : List Byte :=
  [0xD0, 0xEF, 0xAA, 0xFB, 0x43, 0x4D, 0x33, 0x85, 0x45, 0xF9, 0x02, 0x7F, 0x50, 0x3C, 0x9F, 0xA8]
/-- S-box row 7: input bytes 0x70 to 0x7F (R32). -/
def sboxRow7 : List Byte :=
  [0x51, 0xA3, 0x40, 0x8F, 0x92, 0x9D, 0x38, 0xF5, 0xBC, 0xB6, 0xDA, 0x21, 0x10, 0xFF, 0xF3, 0xD2]
/-- S-box row 8: input bytes 0x80 to 0x8F (R32). -/
def sboxRow8 : List Byte :=
  [0xCD, 0x0C, 0x13, 0xEC, 0x5F, 0x97, 0x44, 0x17, 0xC4, 0xA7, 0x7E, 0x3D, 0x64, 0x5D, 0x19, 0x73]
/-- S-box row 9: input bytes 0x90 to 0x9F (R32). -/
def sboxRow9 : List Byte :=
  [0x60, 0x81, 0x4F, 0xDC, 0x22, 0x2A, 0x90, 0x88, 0x46, 0xEE, 0xB8, 0x14, 0xDE, 0x5E, 0x0B, 0xDB]
/-- S-box row A: input bytes 0xA0 to 0xAF (R32). -/
def sboxRowA : List Byte :=
  [0xE0, 0x32, 0x3A, 0x0A, 0x49, 0x06, 0x24, 0x5C, 0xC2, 0xD3, 0xAC, 0x62, 0x91, 0x95, 0xE4, 0x79]
/-- S-box row B: input bytes 0xB0 to 0xBF (R32). -/
def sboxRowB : List Byte :=
  [0xE7, 0xC8, 0x37, 0x6D, 0x8D, 0xD5, 0x4E, 0xA9, 0x6C, 0x56, 0xF4, 0xEA, 0x65, 0x7A, 0xAE, 0x08]
/-- S-box row C: input bytes 0xC0 to 0xCF (R32). -/
def sboxRowC : List Byte :=
  [0xBA, 0x78, 0x25, 0x2E, 0x1C, 0xA6, 0xB4, 0xC6, 0xE8, 0xDD, 0x74, 0x1F, 0x4B, 0xBD, 0x8B, 0x8A]
/-- S-box row D: input bytes 0xD0 to 0xDF (R32). -/
def sboxRowD : List Byte :=
  [0x70, 0x3E, 0xB5, 0x66, 0x48, 0x03, 0xF6, 0x0E, 0x61, 0x35, 0x57, 0xB9, 0x86, 0xC1, 0x1D, 0x9E]
/-- S-box row E: input bytes 0xE0 to 0xEF (R32). -/
def sboxRowE : List Byte :=
  [0xE1, 0xF8, 0x98, 0x11, 0x69, 0xD9, 0x8E, 0x94, 0x9B, 0x1E, 0x87, 0xE9, 0xCE, 0x55, 0x28, 0xDF]
/-- S-box row F: input bytes 0xF0 to 0xFF (R32). -/
def sboxRowF : List Byte :=
  [0x8C, 0xA1, 0x89, 0x0D, 0xBF, 0xE6, 0x42, 0x68, 0x41, 0x99, 0x2D, 0x0F, 0xB0, 0x54, 0xBB, 0x16]

/-- The AES forward S-box, 256 bytes, row after row (R32). -/
def sboxTable : List Byte :=
  sboxRow0 ++ sboxRow1 ++ sboxRow2 ++ sboxRow3 ++ sboxRow4 ++ sboxRow5 ++ sboxRow6 ++ sboxRow7 ++
  sboxRow8 ++ sboxRow9 ++ sboxRowA ++ sboxRowB ++ sboxRowC ++ sboxRowD ++ sboxRowE ++ sboxRowF

/-- `SBOX` has 256 entries (R6). -/
theorem sboxTable_length : sboxTable.length = 256 := by
  simp only [sboxTable, List.length_append]
  rfl

/-- The row of a byte: its high nibble, `b >> 4` (R31). -/
def sboxRow (b : Byte) : Nat := (b.extractLsb' 4 4).toNat

/-- The column of a byte: its low nibble, `b & 0xF` (R31). -/
def sboxColumn (b : Byte) : Nat := (b.extractLsb' 0 4).toNat

/-- `row*16 + column` addresses an entry of the table (R31, R87). -/
theorem sbox_address_lt (b : Byte) : sboxRow b * 16 + sboxColumn b < sboxTable.length := by
  have hr := (b.extractLsb' 4 4).isLt
  have hc := (b.extractLsb' 0 4).isLt
  rw [sboxTable_length]
  unfold sboxRow sboxColumn
  omega

/-- `SBOX[b]`: the entry at `row*16 + column` (R31). -/
def sbox (b : Byte) : Byte :=
  sboxTable[sboxRow b * 16 + sboxColumn b]'(sbox_address_lt b)

/-- `RCON`, 11 entries, indices 0 to 10 (R34, R35); index 0 holds the open parameter `RCON0`. -/
def rconTable : List Byte :=
  [Config.rcon0, 0x01, 0x02, 0x04, 0x08, 0x10, 0x20, 0x40, 0x80, 0x1B, 0x36]

/-- `RCON` has 11 entries (R6, R35). -/
theorem rconTable_length : rconTable.length = 11 := rfl

/-- `RCON[r]`, which only round indices 1 to 10 ever read (R30, R35). -/
def rcon (r : StepRound) : Byte :=
  rconTable[r.val]'(by have := r.property; rw [rconTable_length]; omega)

end Sys2Proof.Machine
end

