-- ==== Sys2Proof/Machine/WordFns.lean ====
section
/-!
DEFINITION. The pure functions on words and keys (40_word_primitives.md R70 to R74, 41_key_inversion.md R80, R81). The
functions that use a round constant are defined on round indices 1 to 10 only (U1, U2).
-/
namespace Sys2Proof.Machine

/-- `a ^ b` on words: exclusive-or of bytes at the same index (R70). -/
def xorWord (a b : Word) : Word := ⟨a.b0 ^^^ b.b0, a.b1 ^^^ b.b1, a.b2 ^^^ b.b2, a.b3 ^^^ b.b3⟩

/-- `RotWord`: rotate left by one byte position (R73). -/
def rotWord (w : Word) : Word := ⟨w.b1, w.b2, w.b3, w.b0⟩

/-- `SubWord`: substitute each byte through the S-box (R71). -/
def subWord (w : Word) : Word := ⟨sbox w.b0, sbox w.b1, sbox w.b2, sbox w.b3⟩

/-- `AddRcon`: add the round constant to byte 0 (R72). -/
def addRcon (w : Word) (r : StepRound) : Word := ⟨w.b0 ^^^ rcon r, w.b1, w.b2, w.b3⟩

/-- `G`: rotate, substitute, add the constant, in this order (R74). -/
def gWord (w : Word) (r : StepRound) : Word := addRcon (subWord (rotWord w)) r

/-- The five steps of R80 with the key-expansion function left open: R82 holds whatever it is. -/
def invertWith (g : Word → Word) (key : Key) : Key :=
  let w4 := key.w0
  let w5 := key.w1
  let w6 := key.w2
  let w7 := key.w3
  let w1 := xorWord w4 w5
  let w2 := xorWord w5 w6
  let w3 := xorWord w6 w7
  ⟨xorWord w4 (g w3), w1, w2, w3⟩

/-- `InvRoundKey(key, r)`: the key of round r - 1 (R80). -/
def invRoundKey (key : Key) (r : StepRound) : Key := invertWith (fun w => gWord w r) key

/-- The forward step of R81 with the key-expansion function left open. -/
def forwardWith (g : Word → Word) (key : Key) : Key :=
  let w4 := xorWord key.w0 (g key.w3)
  let w5 := xorWord key.w1 w4
  let w6 := xorWord key.w2 w5
  let w7 := xorWord key.w3 w6
  ⟨w4, w5, w6, w7⟩

/-- `FwdRoundKey(key, r)`: the key of round r, a reference function that no command computes (R81). -/
def fwdRoundKey (key : Key) (r : StepRound) : Key := forwardWith (fun w => gWord w r) key

/-- The forward schedule of an original key (R81): `K0`, then `K(r) = FwdRoundKey(K(r-1), r)`, for rounds up to 10. -/
def forwardSchedule (original : Key) : (r : Nat) → r ≤ 10 → Key
  | 0, _ => original
  | r + 1, h => fwdRoundKey (forwardSchedule original r (by omega)) ⟨r + 1, by omega, h⟩

/-- `inverse_round_key` on round keys: the predecessor, tagged with the round before; none for a key of round 0, which is
outside the contract (R80, U2). -/
def predecessor (rk : RoundKey) : Option RoundKey :=
  if h : 1 ≤ rk.round.val then
    some ⟨⟨rk.round.val - 1, by omega⟩, invRoundKey rk.key ⟨rk.round.val, h, by omega⟩⟩
  else none

end Sys2Proof.Machine
end

