-- ==== Sys2Proof/Machine/Ops.lean ====
section
/-!
DEFINITION. The operations the commands share: access to the schedule store (20_memory.md R37), answering a command
(00_scope.md R8), raising a fault (60_exceptions.md R100), one inversion step of the stored schedule (41_key_inversion.md
R84, R85) and reset (70_reset_and_hazards.md R120). There is no return from a fault (R110).
-/
namespace Sys2Proof.Machine

/-- How a command ends. -/
abbrev Result := Host.Outcome State Fault Refusal

/-- `SCHED[k]`, legal only when `k < LEN` (R8, R14). -/
def readSlot (s : State) (k : Nat) : Option RoundKey :=
  if h : k < s.len.val then s.sched[k]'(by omega) else none

/-- `CUR = SCHED[LEN-1]`; none when LEN = 0 (R15). -/
def currentKey (s : State) : Option RoundKey := readSlot s (s.len.val - 1)

/-- `SCHED[0] <- rk`, `LEN <- 1`: a new schedule, in which every other slot is invalid (R37, R83). -/
def startSchedule (rk : RoundKey) (s : State) : State :=
  { s with sched := (Vector.replicate 11 none).set 0 (some rk), len := 1 }

/-- `SCHED[LEN] <- rk`, `LEN <- LEN + 1` (R37, R84); none when there is no slot LEN. -/
def appendSlot (rk : RoundKey) (s : State) : Option State :=
  if h : s.len.val < 11 then
    some { s with sched := s.sched.set s.len.val (some rk) h, len := ⟨s.len.val + 1, by omega⟩ }
  else none

/-- The command answers (R4, R8). -/
def respond (r : Response) (s : State) : State := { s with responses := s.responses ++ [r] }

/-- `raise Fault(code)`: FAULT <- 1, the response has status `code`, nothing else changes (R100, R109). -/
def raiseFault (c : FaultCode) (s : State) : State := respond (.bare (.raised c)) (setFault s)

/-- One iteration of the loop of R85, and the writes of R84: append the predecessor of the current key. None when there is
no current key, its round is 0, or no slot is free. -/
def appendPredecessor (s : State) : Option State :=
  (currentKey s).bind fun cur => (predecessor cur).bind fun newkey => appendSlot newkey s

/-- `repeat count times` of R85. -/
def invertTimes : Nat → State → Option State
  | 0, s => some s
  | count + 1, s => (appendPredecessor s).bind (invertTimes count)

/-- Reset (R120): the architectural state is that of R24, and a new run begins, with no response yet (R128). The actions
the host has still to issue are the host's and stay. -/
def resetBlock (s : State) : State := { State.reset with host := s.host }

end Sys2Proof.Machine
end

