-- ==== Sys2Proof/Machine/Inversion.lean ====
section
/-!
DEFINITION. Loading a key and inverting the schedule (41_key_inversion.md R83 to R85).
-/
namespace Sys2Proof.Machine

/-- `LDKEY n` (R83): n > 10 faults `ROUND_RANGE`; else the loaded key starts a new schedule. -/
def execLdkey (n : Nat) (s : State) : Result :=
  if h : n ≤ 10 then .next (respond (.bare .ok) (startSchedule ⟨⟨n, by omega⟩, keyOperand s⟩ s))
  else .next (raiseFault .roundRange s)

/-- `INVRK` (R84): `NO_KEY` when LEN = 0, `ROUND_ZERO` when the current round is 0, else the predecessor of the current
key is appended and answered. -/
def execInvrk (s : State) : Result :=
  if s.len.val = 0 then .next (raiseFault .noKey s)
  else
    match currentKey s with
    | none => .fault .brokenSchedule
    | some cur =>
      match predecessor cur with
      | none => .next (raiseFault .roundZero s)
      | some newkey =>
        match appendSlot newkey s with
        | none => .fault .brokenSchedule
        | some t => .next (respond (.tagged newkey.round newkey.key) t)

/-- `INVALL` (R85): `NO_KEY` when LEN = 0; else as many inversion steps as the current round says, then the last key is
answered. -/
def execInvall (s : State) : Result :=
  if s.len.val = 0 then .next (raiseFault .noKey s)
  else
    match currentKey s with
    | none => .fault .brokenSchedule
    | some cur =>
      match invertTimes cur.round.val s with
      | none => .fault .brokenSchedule
      | some t =>
        match currentKey t with
        | none => .fault .brokenSchedule
        | some last => .next (respond (.tagged last.round last.key) t)

end Sys2Proof.Machine
end

