-- ==== Sys2Proof/Machine/Readout.lean ====
section
/-!
DEFINITION. Reading the schedule and the status (42_readout_status.md R90 to R92).
-/
namespace Sys2Proof.Machine

/-- Answer the round key of a valid slot; an absent one breaks the schedule invariant. -/
def answerSlot (slot : Option RoundKey) (s : State) : Result :=
  match slot with
  | none => .fault .brokenSchedule
  | some rk => .next (respond (.tagged rk.round rk.key) s)

/-- `RDSCH n` (R90): `INDEX` when n ≥ LEN, else slot n. -/
def execRdsch (n : Nat) (s : State) : Result :=
  if s.len.val ≤ n then .next (raiseFault .index s) else answerSlot (readSlot s n) s

/-- `RDLAST` (R91): `NO_KEY` when LEN = 0, else the current key. -/
def execRdlast (s : State) : Result :=
  if s.len.val = 0 then .next (raiseFault .noKey s) else answerSlot (currentKey s) s

/-- `STAT` (R92): LEN, the current round (0 when LEN = 0) and FAULT. -/
def execStat (s : State) : Result :=
  if s.len.val = 0 then .next (respond (.data (statData s.len 0 s.fault)) s)
  else
    match currentKey s with
    | none => .fault .brokenSchedule
    | some cur => .next (respond (.data (statData s.len cur.round s.fault)) s)

end Sys2Proof.Machine
end

