-- ==== Sys2Proof/Machine/WordCommands.lean ====
section
/-!
DEFINITION. The four word commands (40_word_primitives.md R75 to R78). They read the word `DIN[0..3]`, answer a word, and
touch no state but `FAULT` on a fault.
-/
namespace Sys2Proof.Machine

/-- Answer a word result (R55). -/
def answerWord (w : Word) (s : State) : State := respond (.data (wordResult w)) s

/-- `ROTW` (R75). -/
def execRotw (s : State) : Result := .next (answerWord (rotWord (wordOperand s)) s)

/-- `SUBW` (R76). -/
def execSubw (s : State) : Result := .next (answerWord (subWord (wordOperand s)) s)

/-- `ADDRC n` (R77): n = 0 or n > 10 faults `ROUND_RANGE`. -/
def execAddrc (n : Nat) (s : State) : Result :=
  if h : 1 ≤ n ∧ n ≤ 10 then .next (answerWord (addRcon (wordOperand s) ⟨n, h⟩) s)
  else .next (raiseFault .roundRange s)

/-- `GWORD n` (R78): n = 0 or n > 10 faults `ROUND_RANGE`. -/
def execGword (n : Nat) (s : State) : Result :=
  if h : 1 ≤ n ∧ n ≤ 10 then .next (answerWord (gWord (wordOperand s) ⟨n, h⟩) s)
  else .next (raiseFault .roundRange s)

end Sys2Proof.Machine
end

