-- ==== Sys2Proof/Machine/Dispatch.lean ====
section
/-!
DEFINITION. The meaning of each command, one arm per row of spec/opcode_table.json.
-/
namespace Sys2Proof.Machine

def exec (i : Instr) (s : State) : Host.Outcome State Fault Refusal :=
  match i with
  | .ldkey n => Sys2Proof.Machine.execLdkey n s
  | .invrk => Sys2Proof.Machine.execInvrk s
  | .invall => Sys2Proof.Machine.execInvall s
  | .rdsch n => Sys2Proof.Machine.execRdsch n s
  | .rdlast => Sys2Proof.Machine.execRdlast s
  | .stat => Sys2Proof.Machine.execStat s
  | .rotw => Sys2Proof.Machine.execRotw s
  | .subw => Sys2Proof.Machine.execSubw s
  | .addrc n => Sys2Proof.Machine.execAddrc n s
  | .gword n => Sys2Proof.Machine.execGword n s

end Sys2Proof.Machine
end

