-- ==== Sys2Proof/Machine/Transaction.lean ====
section
/-!
DEFINITION. One transaction (00_scope.md R4): the host presents a command word with its data operand, the block decodes the
word before it looks at the state (30_encoding.md R60), and executes it to completion.
-/
namespace Sys2Proof.Machine

/-- One command with the value on the data-in port. A word that selects no command faults `ILLEGAL_CMD` (R102). -/
def transaction (cmd : BitVec 8) (din : Key) (s : State) : Result :=
  let s := { s with din := din }
  match decode cmd with
  | .command i => exec i s
  | .illegal _ => .next (raiseFault .illegalCmd s)

/-- One action of the host (R127). -/
def perform (a : HostAction) (s : State) : Result :=
  match a with
  | .reset => .next (resetBlock s)
  | .command cmd din => transaction cmd din s

/-- A run's commands, each issued after the earlier one has responded (R128). -/
def runCommands : List (BitVec 8 × Key) → State → Result
  | [], s => .next s
  | (cmd, din) :: rest, s =>
    match transaction cmd din s with
    | .next t => runCommands rest t
    | .fault f => .fault f
    | .refused r => .refused r

end Sys2Proof.Machine
end

