-- ==== Sys2Proof/Machine/Step.lean ====
section
/-!
DEFINITION. One step: the host's next action is performed. With none to come the block idles with its state held
(60_exceptions.md R113). The block fetches nothing itself (10_state.md R21); the host's list of actions stands for the program.
-/
namespace Sys2Proof.Machine

/-- One step of the block and its host. -/
def step (s : State) : Host.Outcome State Fault Refusal :=
  match s.host with
  | [] => .next s
  | a :: rest => perform a { s with host := rest }

/-- The state in which the host's next action is the command whose word is the `nbits` bits of `w`, with an all-zero data
operand, the value the assembler sends where a command takes none (R61). Log entry 3. -/
def State.withFetchWord (s : State) (nbits w : Nat) : State :=
  { s with host := .command (BitVec.ofNat 8 (w % 2 ^ nbits)) Key.zero :: s.host }

end Sys2Proof.Machine
end

