-- ==== Sys2Proof/Machine/Assembler.lean ====
section
/-!
DEFINITION. The assembler text form of 30_encoding.md R61: one command a line, the mnemonic in upper case, a decimal round or
position, data as hexadecimal digits with no prefix and byte 0 first, a comment from `;` to the end of the line.
-/
namespace Sys2Proof.Machine

/-- A line of the text form (R61). The operands r and k may be 0 to 15, so that out-of-range operands can be written. -/
inductive AsmLine where
  | ldkey (r : Fin 16) (key : Key)
  | invrk
  | invall
  | rdsch (k : Fin 16)
  | rdlast
  | stat
  | rotw (w : Word)
  | subw (w : Word)
  | addrc (r : Fin 16) (w : Word)
  | gword (r : Fin 16) (w : Word)
  | cmd (word : Byte) (key : Key)
  deriving DecidableEq, Repr

/-- The command word of a line, the second column of R61's table. -/
def asmWord : AsmLine → BitVec 8
  | .ldkey r _ => 0x10 + BitVec.ofNat 8 r.val
  | .invrk => 0x20
  | .invall => 0x30
  | .rdsch k => 0x40 + BitVec.ofNat 8 k.val
  | .rdlast => 0x50
  | .stat => 0x60
  | .rotw _ => 0x80
  | .subw _ => 0x90
  | .addrc r _ => 0xA0 + BitVec.ofNat 8 r.val
  | .gword r _ => 0xB0 + BitVec.ofNat 8 r.val
  | .cmd word _ => word

/-- The data operand of a line, the third column of R61's table. -/
def asmDin : AsmLine → Key
  | .ldkey _ key => key
  | .invrk => .zero
  | .invall => .zero
  | .rdsch _ => .zero
  | .rdlast => .zero
  | .stat => .zero
  | .rotw w => wordResult w
  | .subw w => wordResult w
  | .addrc _ w => wordResult w
  | .gword _ w => wordResult w
  | .cmd _ key => key

/-- What the assembler sends for a line: exactly one command (R61, no pseudo-instructions). -/
def assemble (l : AsmLine) : HostAction := .command (asmWord l) (asmDin l)

/-- The value of a hexadecimal digit, upper or lower case (R61). -/
def hexDigit (c : Char) : Option Nat :=
  if 48 ≤ c.toNat ∧ c.toNat ≤ 57 then some (c.toNat - 48)
  else if 65 ≤ c.toNat ∧ c.toNat ≤ 70 then some (c.toNat - 55)
  else if 97 ≤ c.toNat ∧ c.toNat ≤ 102 then some (c.toNat - 87)
  else none

/-- Pairs of digits, "two digits combine as `high*16 + low`" (R61). -/
def hexBytes : List Char → Option (List Byte)
  | [] => some []
  | [_] => none
  | high :: low :: rest =>
    match hexDigit high, hexDigit low, hexBytes rest with
    | some h, some l, some bytes => some (BitVec.ofNat 8 (h * 16 + l) :: bytes)
    | _, _, _ => none

/-- Eight digits: a word (R61). -/
def hexWord (cs : List Char) : Option Word :=
  match hexBytes cs with
  | some [b0, b1, b2, b3] => some ⟨b0, b1, b2, b3⟩
  | _ => none

/-- Thirty-two digits: a key (R61). -/
def hexKey (cs : List Char) : Option Key :=
  match hexBytes cs with
  | some [b0, b1, b2, b3, b4, b5, b6, b7, b8, b9, b10, b11, b12, b13, b14, b15] =>
    some ⟨⟨b0, b1, b2, b3⟩, ⟨b4, b5, b6, b7⟩, ⟨b8, b9, b10, b11⟩, ⟨b12, b13, b14, b15⟩⟩
  | _ => none

/-- Two digits: a command word (R61, `.cmd`). -/
def hexCommand (cs : List Char) : Option Byte :=
  match hexBytes cs with
  | some [b] => some b
  | _ => none

/-- A decimal number after the digits already read. -/
def decimalFrom (acc : Nat) : List Char → Option Nat
  | [] => some acc
  | c :: rest =>
    if 48 ≤ c.toNat ∧ c.toNat ≤ 57 then decimalFrom (acc * 10 + (c.toNat - 48)) rest else none

/-- A round index or position: a decimal number 0 to 15 (R61). -/
def decimalOperand (cs : List Char) : Option (Fin 16) :=
  if cs = [] then none
  else
    match decimalFrom 0 cs with
    | some n => if h : n < 16 then some ⟨n, h⟩ else none
    | none => none

/-- The text before a comment (R61). -/
def beforeComment : List Char → List Char
  | [] => []
  | c :: rest => if c = ';' then [] else c :: beforeComment rest

/-- Words and commas of a line; `word` is the word being read, last character first. -/
def lineTokens (word : List Char) : List Char → List (List Char)
  | [] => if word = [] then [] else [word.reverse]
  | c :: rest =>
    if c = ' ' ∨ c = '\t' then (if word = [] then [] else [word.reverse]) ++ lineTokens [] rest
    else if c = ',' then (if word = [] then [] else [word.reverse]) ++ [','] :: lineTokens [] rest
    else lineTokens (c :: word) rest

/-- The forms with a decimal operand and data: `LDKEY r, <key>`, `ADDRC r, <word>`, `GWORD r, <word>`. -/
def roundAndData {α : Type} (line : Fin 16 → α → AsmLine) (data : List Char → Option α) (r cs : List Char) : Option AsmLine :=
  match decimalOperand r, data cs with
  | some r, some d => some (line r d)
  | _, _ => none

/-- A line of the table of R61 from its words and commas. -/
def parseTokens : List (List Char) → Option AsmLine
  | [m] =>
    if m = ['I', 'N', 'V', 'R', 'K'] then some .invrk
    else if m = ['I', 'N', 'V', 'A', 'L', 'L'] then some .invall
    else if m = ['R', 'D', 'L', 'A', 'S', 'T'] then some .rdlast
    else if m = ['S', 'T', 'A', 'T'] then some .stat
    else none
  | [m, x] =>
    if m = ['R', 'D', 'S', 'C', 'H'] then (decimalOperand x).map .rdsch
    else if m = ['R', 'O', 'T', 'W'] then (hexWord x).map .rotw
    else if m = ['S', 'U', 'B', 'W'] then (hexWord x).map .subw
    else none
  | [m, x, comma, y] =>
    if comma ≠ [','] then none
    else if m = ['L', 'D', 'K', 'E', 'Y'] then roundAndData .ldkey hexKey x y
    else if m = ['A', 'D', 'D', 'R', 'C'] then roundAndData .addrc hexWord x y
    else if m = ['G', 'W', 'O', 'R', 'D'] then roundAndData .gword hexWord x y
    else if m = ['.', 'c', 'm', 'd'] then
      match hexCommand x, hexKey y with
      | some word, some key => some (.cmd word key)
      | _, _ => none
    else none
  | _ => none

/-- A line of text: no command (blank, or a comment only), one command, or, outermost none, not of the text form (R61). -/
def parseLine (text : List Char) : Option (Option AsmLine) :=
  match lineTokens [] (beforeComment text) with
  | [] => some none
  | tokens => (parseTokens tokens).map some

end Sys2Proof.Machine
end

