-- ==== Sys2Proof/Machine/Ports.lean ====
section
/-!
DEFINITION. The port level (70_reset_and_hazards.md R122 to R124, R126): the valid/ready handshake that carries the
transactions of R4, one clock cycle at a time. The latency is a free number of cycles, at least 1 (R6).
-/
namespace Sys2Proof.Machine

/-- `LATENCY(cmd)`, at least 1: by the command word and, for `INVALL`, by the current round tag (R6, R126). For `INVALL` without a
tag, LEN = 0, the spec is silent and the latency is a free value of its own: DESIGN CHOICE, log entry 9. -/
def latency (cmd : BitVec 8) (currentRound : Option Round) : Nat :=
  1 + if cmd = 0x30 then Config.invallLatencyExtra currentRound else Config.commandLatencyExtra cmd

/-- The round tag of the current key; none when there is no current key (R15). -/
def currentRound (s : State) : Option Round := (currentKey s).map (·.round)

/-- The block can accept a command this cycle (R123). In a cycle with `rst` it accepts none (log entry 11). -/
def cmdReady (p : PortState) (i : PortIn) : Bool := p.busy.isNone && !i.rst

/-- A command is accepted this cycle: `cmd_valid` and `cmd_ready` are both 1 (R123). -/
def accepts (p : PortState) (i : PortIn) : Bool := i.cmdValid && cmdReady p i

/-- A response is presented this cycle (R123). -/
def rspValid (p : PortState) : Bool := p.busy == some 0

/-- The response the block gave last. -/
def lastResponse (s : State) : Option Response := s.responses.getLast?

/-- The response port lines that carry a response: the fields it specifies, free values elsewhere (R51, R123). -/
def responsePorts (r : Response) (cycle : Nat) : BitVec 4 × BitVec 4 × BitVec 128 :=
  match r with
  | .bare st => (st.code, Config.freeRtag cycle, Config.freeDout cycle)
  | .data d => (0, Config.freeRtag cycle, portOfKey d)
  | .tagged rtag d => (0, BitVec.ofNat 4 rtag.val, portOfKey d)

/-- What the response port lines carry this cycle: the response in its cycle, free values in every other (R123). -/
def responseLines (p : PortState) : BitVec 4 × BitVec 4 × BitVec 128 :=
  match rspValid p, lastResponse p.block with
  | true, some r => responsePorts r p.cycle
  | _, _ => (Config.freeStatus p.cycle, Config.freeRtag p.cycle, Config.freeDout p.cycle)

/-- The output ports in one cycle (R122). -/
def outputs (p : PortState) (i : PortIn) : PortOut where
  cmdReady := cmdReady p i
  rspValid := rspValid p
  rspStatus := (responseLines p).1
  rspRtag := (responseLines p).2.1
  dout := (responseLines p).2.2

/-- The state after one cycle (R122, R123). A command accepted in this cycle changes the block at once and is answered
`LATENCY` cycles later, for exactly one cycle. Reset while a command is in progress is refused (R129). -/
def cycle (p : PortState) (i : PortIn) : Host.Outcome PortState Fault Refusal :=
  match p.busy, i.rst with
  | some _, true => .refused .resetMidCommand
  | none, true => .next { block := resetBlock p.block, busy := none, cycle := p.cycle + 1 }
  | some (left + 1), false => .next { p with busy := some left, cycle := p.cycle + 1 }
  | some 0, false => .next { p with busy := none, cycle := p.cycle + 1 }
  | none, false =>
    if i.cmdValid then
      match transaction i.cmd (keyOfPort i.din) p.block with
      | .next t => .next { block := t, busy := some (latency i.cmd (currentRound p.block) - 1), cycle := p.cycle + 1 }
      | .fault f => .fault f
      | .refused r => .refused r
    else .next { p with cycle := p.cycle + 1 }

/-- As many cycles as there are inputs. -/
def cycles : List PortIn → PortState → Host.Outcome PortState Fault Refusal
  | [], p => .next p
  | i :: rest, p =>
    match cycle p i with
    | .next q => cycles rest q
    | .fault f => .fault f
    | .refused r => .refused r

end Sys2Proof.Machine
end

