-- ==== Sys2Proof/Safety.lean ====
section
/-!
DEFINITION. What claims speak of: the invariant of the reachable states (10_state.md R14, R16, R25; 60_exceptions.md R110),
reachability (R25), and what two states may share.
-/
namespace Sys2Proof.Machine

/-- Slot k holds a value exactly when `k < LEN` (R14). -/
abbrev SlotsMatchLen (s : State) : Prop :=
  ∀ k : Fin 11, (s.sched[k.val]).isSome = decide (k.val < s.len.val)

/-- Each valid slot after the first is the predecessor of the slot before it: its round is one less and its key is
`InvRoundKey` of it (R16). -/
abbrev SlotsChained (s : State) : Prop :=
  ∀ k : Fin 10, k.val + 1 < s.len.val → s.sched[k.val + 1] = (s.sched[k.val]).bind predecessor

/-- The schedule invariant (R14, R16). -/
abbrev ScheduleInv (s : State) : Prop := SlotsMatchLen s ∧ SlotsChained s

/-- The response reports a fault. -/
def Response.isFault (r : Response) : Bool :=
  match r with
  | .bare (.raised _) => true
  | _ => false

/-- FAULT is 1 exactly when some response since reset had a non-zero status (R19; 95_test_vectors.md section 7). -/
abbrev FaultInv (s : State) : Prop := s.fault = s.responses.any Response.isFault

/-- What holds at every point between commands. -/
abbrev BlockInv (s : State) : Prop := ScheduleInv s ∧ FaultInv s

/-- The reset state, or what one command makes of a reachable state (R25). -/
inductive Reachable : State → Prop where
  | reset : Reachable State.reset
  | command {s t : State} (cmd : BitVec 8) (din : Key) :
      Reachable s → transaction cmd din s = .next t → Reachable t

/-- The port-level invariant: the block's own, and a command in progress has given its response. -/
abbrev PortInv (p : PortState) : Prop := BlockInv p.block ∧ (p.busy ≠ none → p.block.responses ≠ [])

/-- The two states hold the same schedule: SCHED and LEN. -/
abbrev SameSchedule (s t : State) : Prop := t.sched = s.sched ∧ t.len = s.len

/-- The two states have the same port and host side: DIN, and the host's actions to come. -/
abbrev SameHostSide (s t : State) : Prop := t.din = s.din ∧ t.host = s.host

/-- The states agree on all a command's result may depend on: SCHED, LEN, FAULT and DIN (R86). -/
abbrev SameInputs (s t : State) : Prop :=
  t.sched = s.sched ∧ t.len = s.len ∧ t.fault = s.fault ∧ t.din = s.din

/-- The state after a fault: FAULT set and the code answered, nothing else changed (R100). -/
abbrev afterFault (c : FaultCode) (s : State) : State :=
  { s with fault := true, responses := s.responses ++ [.bare (.raised c)] }

/-- The state after a command that only answers. -/
abbrev afterAnswer (r : Response) (s : State) : State := { s with responses := s.responses ++ [r] }

/-- The command word selects no command: a reserved opcode, or a non-zero operand where it must be 0 (R102). -/
abbrev IllegalWord (cmd : BitVec 8) : Prop :=
  cmd.toNat / 16 ∈ [0x0, 0x7, 0xC, 0xD, 0xE, 0xF] ∨
    (cmd.toNat / 16 ∈ [0x2, 0x3, 0x5, 0x6, 0x8, 0x9] ∧ cmd.toNat % 16 ≠ 0)

/-- The command word of `LDKEY n` with n > 10, or of `ADDRC n` or `GWORD n` with n = 0 or n > 10 (R58, R103). -/
abbrev BadRoundWord (cmd : BitVec 8) : Prop :=
  (cmd.toNat / 16 = 0x1 ∧ 10 < cmd.toNat % 16) ∨
    (cmd.toNat / 16 ∈ [0xA, 0xB] ∧ (cmd.toNat % 16 = 0 ∨ 10 < cmd.toNat % 16))

/-- A command with a round operand outside its legal range (R58, R103). -/
abbrev BadRound (i : Instr) : Prop :=
  match i with
  | .ldkey n => 10 < n
  | .addrc n => n = 0 ∨ 10 < n
  | .gword n => n = 0 ∨ 10 < n
  | .invrk => False
  | .invall => False
  | .rdsch _ => False
  | .rdlast => False
  | .stat => False
  | .rotw => False
  | .subw => False

/-- The classes of command words in the table of R59. -/
inductive WordClass where
  | illegalCmd
  | roundRange
  | command
  deriving DecidableEq, Repr

/-- The table of R59, by opcode and operand. -/
def tableClass (opc n : Nat) : WordClass :=
  match opc with
  | 0x1 => if n ≤ 10 then .command else .roundRange
  | 0x2 => if n = 0 then .command else .illegalCmd
  | 0x3 => if n = 0 then .command else .illegalCmd
  | 0x4 => .command
  | 0x5 => if n = 0 then .command else .illegalCmd
  | 0x6 => if n = 0 then .command else .illegalCmd
  | 0x8 => if n = 0 then .command else .illegalCmd
  | 0x9 => if n = 0 then .command else .illegalCmd
  | 0xA => if n = 0 then .roundRange else if n ≤ 10 then .command else .roundRange
  | 0xB => if n = 0 then .roundRange else if n ≤ 10 then .command else .roundRange
  | _ => .illegalCmd

/-- The class in which the decoder puts a command word: no command, a command whose round operand is out of range, or a
command (R59). -/
def decodedClass (cmd : BitVec 8) : WordClass :=
  match decode cmd with
  | .illegal _ => .illegalCmd
  | .command (.ldkey n) => if 10 < n then .roundRange else .command
  | .command (.addrc n) => if n = 0 ∨ 10 < n then .roundRange else .command
  | .command (.gword n) => if n = 0 ∨ 10 < n then .roundRange else .command
  | .command _ => .command

/-- All 256 command words. -/
def allWords : List (BitVec 8) := (List.range 256).map (BitVec.ofNat 8)

/-- Doubling in GF(2^8) modulo x^8 + x^4 + x^3 + x + 1 (R34, G3). -/
def gfDouble (a : Byte) : Byte := (a <<< 1) ^^^ (if a.msb then 0x1B else 0)

/-- The product of `a` with the low `bits` bits of `b` in GF(2^8) (R32, G3). -/
def gfMul : (bits : Nat) → Byte → Byte → Byte
  | 0, _, _ => 0
  | bits + 1, a, b => (if b.getLsbD 0 then a else 0) ^^^ gfMul bits (gfDouble a) (b >>> 1)

/-- The affine map of the S-box (R32, G3). -/
def sboxAffine (y : Byte) : Byte :=
  y ^^^ y.rotateLeft 1 ^^^ y.rotateLeft 2 ^^^ y.rotateLeft 3 ^^^ y.rotateLeft 4 ^^^ 0x63

end Sys2Proof.Machine
end

