-- ==== Sys2Proof/Certificates/Slice0/Obligations.lean ====
section
/-!
DEFINITION. The statements for the provers. Each docstring names the rule of spec/ it formalises.
-/

open Sys2Proof Sys2Proof.Machine

/-! Encoding -/

/-- Words of every family, written out bit by bit from R52, decode to the commands they stand for; reserved words are
refused (R56, R57). -/
def Obligations.SampleWordsDecode : Prop :=
  decode 0b00011010 = .command (.ldkey 10) ∧ decode 0b00011111 = .command (.ldkey 15) ∧ decode 0b00100000 = .command .invrk ∧
    decode 0b00110000 = .command .invall ∧ decode 0b01001011 = .command (.rdsch 11) ∧ decode 0b01010000 = .command .rdlast ∧
    decode 0b01100000 = .command .stat ∧ decode 0b10000000 = .command .rotw ∧ decode 0b10010000 = .command .subw ∧
    decode 0b10101010 = .command (.addrc 10) ∧ decode 0b10110001 = .command (.gword 1) ∧
    decode 0b00000000 = .illegal .reservedOpcode ∧ decode 0b01110000 = .illegal .reservedOpcode ∧
    decode 0b11000000 = .illegal .reservedOpcode ∧ decode 0b00100001 = .illegal .nonzeroOperand ∧
    decode 0b10000001 = .illegal .nonzeroOperand

/-- Decoding the word of a well-formed command gives the command, at every operand value (R50, R52, R53). -/
def Obligations.DecodeEncodeRoundTrip : Prop :=
  ∀ i : Instr, i.WellFormed → decode (encode i) = .command i

/-- A word that decodes is the word of the command it decodes to, and that command is well-formed: no two words share a
meaning (R52, R57: reserved words are no aliases). -/
def Obligations.EncodeDecodeRoundTrip : Prop :=
  ∀ (cmd : BitVec 8) (i : Instr), decode cmd = .command i → i.WellFormed ∧ encode i = cmd

/-- R59, which the spec marks as derived from R52 and R56 to R58: each of the 256 command words falls in exactly the class of the table; the counts are 186, 17 and 53; and the words
that select no row of the opcode table are exactly those that give ILLEGAL_CMD. -/
def Obligations.CommandWordsClassified : Prop :=
  (∀ cmd : BitVec 8, decodedClass cmd = tableClass (cmd.toNat / 16) (cmd.toNat % 16)) ∧
    allWords.countP (fun cmd => decodedClass cmd = .illegalCmd) = 186 ∧
    allWords.countP (fun cmd => decodedClass cmd = .roundRange) = 17 ∧
    allWords.countP (fun cmd => decodedClass cmd = .command) = 53 ∧
    ∀ cmd : BitVec 8, decodedClass cmd = .illegalCmd ↔ ∀ row ∈ tableRows, ¬ SelectsRow cmd row

/-- The assembler's word for a line is the command word of the line's command, and its data operand is the line's data
(R61, R52). -/
def Obligations.AssembledLinesDecode : Prop :=
  (∀ (r : Fin 16) (key : Key), assemble (.ldkey r key) = .command (encode (.ldkey r.val)) key) ∧
    assemble .invrk = .command (encode .invrk) .zero ∧
    assemble .invall = .command (encode .invall) .zero ∧
    (∀ k : Fin 16, assemble (.rdsch k) = .command (encode (.rdsch k.val)) .zero) ∧
    assemble .rdlast = .command (encode .rdlast) .zero ∧
    assemble .stat = .command (encode .stat) .zero ∧
    (∀ w : Word, assemble (.rotw w) = .command (encode .rotw) ⟨w, .zero, .zero, .zero⟩) ∧
    (∀ w : Word, assemble (.subw w) = .command (encode .subw) ⟨w, .zero, .zero, .zero⟩) ∧
    (∀ (r : Fin 16) (w : Word), assemble (.addrc r w) = .command (encode (.addrc r.val)) ⟨w, .zero, .zero, .zero⟩) ∧
    (∀ (r : Fin 16) (w : Word), assemble (.gword r w) = .command (encode (.gword r.val)) ⟨w, .zero, .zero, .zero⟩) ∧
    ∀ (word : Byte) (key : Key), assemble (.cmd word key) = .command word key

/-! Tables and pure functions -/

/-- R31: the entry at row*16 + column is the entry numbered by the byte itself. -/
def Obligations.SboxIndexedByByteValue : Prop :=
  ∀ b : Byte, sboxTable[b.toNat]? = some (sbox b) ∧ b.toNat / 16 * 16 + b.toNat % 16 = b.toNat

/-- R33: the S-box is a bijection on byte values; and, which the spec marks as derived from the table of R32, it has no fixed
point and maps no value to its complement. The table is general knowledge (log entry 2). -/
def Obligations.SboxBijective : Prop :=
  (∀ a b : Byte, sbox a = sbox b → a = b) ∧ (∀ c : Byte, ∃ a, sbox a = c) ∧
    ∀ a : Byte, sbox a ≠ a ∧ sbox a ≠ a ^^^ 0xFF

/-- R32, G3: each entry is the affine map of the multiplicative inverse in GF(2^8), of 0 for 0. The spec marks table and
definition as general knowledge (log entry 2). -/
def Obligations.SboxIsAffineOfInverse : Prop :=
  ∀ a : Byte, ∃ y : Byte, (if a = 0 then y = 0 else gfMul 8 a y = 1) ∧ sbox a = sboxAffine y

/-- R34: RCON[1] = 0x01 and each next entry is the previous one doubled in GF(2^8); the ten values are those of the table.
The spec marks them as general knowledge (log entry 2). -/
def Obligations.RoundConstantsDouble : Prop :=
  rcon ⟨1, by decide⟩ = 0x01 ∧
    (∀ (r : Nat) (h : 1 ≤ r ∧ r + 1 ≤ 10), rcon ⟨r + 1, by omega⟩ = gfDouble (rcon ⟨r, by omega⟩)) ∧
    rconTable.tail = [0x01, 0x02, 0x04, 0x08, 0x10, 0x20, 0x40, 0x80, 0x1B, 0x36]

/-- R73: byte 0 moves to index 3, every other byte one index down, and four rotations give the word back. -/
def Obligations.RotWordMovesBytes : Prop :=
  ∀ w : Word, rotWord w = ⟨w.b1, w.b2, w.b3, w.b0⟩ ∧ rotWord (rotWord (rotWord (rotWord w))) = w

/-- R71: SubWord replaces each byte by its S-box entry and is a bijection on words. -/
def Obligations.SubWordBijective : Prop :=
  (∀ w : Word, subWord w = ⟨sbox w.b0, sbox w.b1, sbox w.b2, sbox w.b3⟩) ∧
    (∀ v w : Word, subWord v = subWord w → v = w) ∧ ∀ v : Word, ∃ w, subWord w = v

/-- R72: AddRcon changes byte 0 alone, by the round constant, and is its own inverse. -/
def Obligations.AddRconChangesByteZero : Prop :=
  ∀ (w : Word) (r : StepRound),
    addRcon w r = ⟨w.b0 ^^^ rcon r, w.b1, w.b2, w.b3⟩ ∧ addRcon (addRcon w r) r = w

/-- R74: G rotates first, substitutes second, adds the constant last; rotation and substitution commute. -/
def Obligations.KeyExpansionFunctionOrder : Prop :=
  ∀ (w : Word) (r : StepRound),
    gWord w r = ⟨sbox w.b1 ^^^ rcon r, sbox w.b2, sbox w.b3, sbox w.b0⟩ ∧
      gWord w r = addRcon (subWord (rotWord w)) r ∧ subWord (rotWord w) = rotWord (subWord w)

/-- R80: the five steps of one inversion, on round keys: the predecessor is tagged r - 1, and a key of round 0 has none. -/
def Obligations.InversionStepWords : Prop :=
  ∀ (w4 w5 w6 w7 : Word) (r : StepRound),
    invRoundKey ⟨w4, w5, w6, w7⟩ r =
        ⟨xorWord w4 (gWord (xorWord w6 w7) r), xorWord w4 w5, xorWord w5 w6, xorWord w6 w7⟩ ∧
      predecessor ⟨⟨r.val, by have := r.property; omega⟩, ⟨w4, w5, w6, w7⟩⟩ =
        some ⟨⟨r.val - 1, by have := r.property; omega⟩, invRoundKey ⟨w4, w5, w6, w7⟩ r⟩ ∧
      predecessor ⟨0, ⟨w4, w5, w6, w7⟩⟩ = none

/-- R82, which the spec marks as derived from R70, R80 and R81: inverse and forward step undo each other, whatever the key-expansion function is; so one inversion step is a
bijection on keys, one step takes K10 to K9, and ten steps take K10 to K0. -/
def Obligations.InverseUndoesForwardStep : Prop :=
  (∀ (g : Word → Word) (k : Key), invertWith g (forwardWith g k) = k ∧ forwardWith g (invertWith g k) = k) ∧
    (∀ (k : Key) (r : StepRound), invRoundKey (fwdRoundKey k r) r = k ∧ fwdRoundKey (invRoundKey k r) r = k) ∧
    (∀ (a b : Key) (r : StepRound), invRoundKey a r = invRoundKey b r → a = b) ∧
    (∀ (b : Key) (r : StepRound), ∃ a, invRoundKey a r = b) ∧
    ∀ (original : Key) (r : Nat) (h : 1 ≤ r ∧ r ≤ 10),
      invRoundKey (forwardSchedule original r h.2) ⟨r, h⟩ = forwardSchedule original (r - 1) (by omega)

/-- R84, corner cases: the round index reaches byte 0 of word 0 alone; a wrong tag changes nothing else of the key. -/
def Obligations.WrongTagChangesByteZero : Prop :=
  ∀ (k : Key) (r q : StepRound),
    (invRoundKey k q).w1 = (invRoundKey k r).w1 ∧ (invRoundKey k q).w2 = (invRoundKey k r).w2 ∧
      (invRoundKey k q).w3 = (invRoundKey k r).w3 ∧
      (invRoundKey k q).w0 =
        ⟨(invRoundKey k r).w0.b0 ^^^ rcon r ^^^ rcon q, (invRoundKey k r).w0.b1, (invRoundKey k r).w0.b2,
          (invRoundKey k r).w0.b3⟩

/-- R39: at the data ports byte i of a key is bits [127-8i : 120-8i], and key and port value determine each other;
a word operand or result is port bits [127:96]. -/
def Obligations.PortBytePositions : Prop :=
  (∀ (v : BitVec 128) (i : Fin 16), (keyOfPort v).byte i = v.extractLsb' (120 - 8 * i.val) 8) ∧
    (∀ v : BitVec 128, portOfKey (keyOfPort v) = v) ∧ (∀ k : Key, keyOfPort (portOfKey k) = k) ∧
    (∀ v : BitVec 128, portOfWord (keyOfPort v).w0 = v.extractLsb' 96 32) ∧
    ∀ w : Word, portOfKey (wordResult w) = portOfWord w ++ 0#96

/-! Reset, invariants, whole-machine rules -/

/-- R24: after reset LEN = 0, FAULT = 0 and every slot is invalid. -/
def Obligations.ResetValues : Prop :=
  State.reset.len = 0 ∧ State.reset.fault = false ∧ (∀ k : Fin 11, State.reset.sched[k.val] = none) ∧
    ∀ k : Nat, readSlot State.reset k = none

/-- The invariant holds at reset, and at the ports after reset (R16, R24, R123). -/
def Obligations.ResetMeetsInvariant : Prop := BlockInv State.reset ∧ PortInv PortState.reset

/-- Every step keeps the invariant, from every state that meets it (R14, R16, R19). That the record of responses starts
again at a reset is the model's choice (log entry 13). -/
def Obligations.StepKeepsInvariant : Prop :=
  ∀ s t : State, BlockInv s → step s = .next t → BlockInv t

/-- R16, which the spec marks as derived from R24 and R83 to R85: in every reachable state each valid slot after the first holds the round before its predecessor's and that
predecessor's inverted key; so the rounds count down from the loaded one. -/
def Obligations.ReachableSchedulesDescend : Prop :=
  ∀ s : State, Reachable s →
    ∀ k : Nat, 0 < k → k < s.len.val →
      ∃ (first before here : RoundKey) (h : 1 ≤ before.round.val),
        readSlot s 0 = some first ∧ readSlot s (k - 1) = some before ∧ readSlot s k = some here ∧
          here.round.val = before.round.val - 1 ∧
          here.key = invRoundKey before.key ⟨before.round.val, h, by omega⟩ ∧
          here.round.val + k = first.round.val ∧
          ∃ cur, currentKey s = some cur ∧ cur.round.val + (s.len.val - 1) = first.round.val

/-- Every reachable state meets the invariant (R25, marked derived in the spec). -/
def Obligations.ReachableStatesMeetInvariant : Prop := ∀ s : State, Reachable s → BlockInv s

/-- R18, which the spec marks as derived from R12 and R16: LEN = SCHED[0].round - CUR.round + 1, so LEN is at most SCHED[0].round + 1, and slot LEN exists whenever the current
round is at least 1; in every state that meets the schedule invariant. -/
def Obligations.LengthMatchesRounds : Prop :=
  ∀ s : State, ScheduleInv s → 1 ≤ s.len.val →
    ∃ first cur : RoundKey, readSlot s 0 = some first ∧ currentKey s = some cur ∧
      s.len.val + cur.round.val = first.round.val + 1 ∧ s.len.val ≤ first.round.val + 1 ∧ first.round.val + 1 ≤ 11 ∧
      (1 ≤ cur.round.val → s.len.val < 11)

/-- R115, which the spec marks as derived from R100 and R110: the machine is total: in a state that meets the invariant, every one of the 256 command words with every data
operand is answered by a next state with exactly one response. -/
def Obligations.EveryCommandWordAnswered : Prop :=
  ∀ (s : State) (cmd : BitVec 8) (din : Key), BlockInv s →
    ∃ (t : State) (r : Response), transaction cmd din s = .next t ∧ t.responses = s.responses ++ [r] ∧ BlockInv t

/-- R100: a transaction either faults, and then sets FAULT and answers the code and changes nothing else, or completes, and
then answers OK and does not touch FAULT. DIN is the port value of the transaction. -/
def Obligations.FaultChangesOnlyFault : Prop :=
  ∀ (s t : State) (cmd : BitVec 8) (din : Key), transaction cmd din s = .next t →
    (∃ c, t = { s with din := din, fault := true, responses := s.responses ++ [.bare (.raised c)] }) ∨
      ∃ r, t.responses = s.responses ++ [r] ∧ r.status = .ok ∧ r.status.code = 0 ∧ t.fault = s.fault

/-- R110: FAULT stays set through every step but a reset. -/
def Obligations.FaultStaysUntilReset : Prop :=
  ∀ s t : State, step s = .next t → s.host.head? ≠ some .reset → s.fault = true → t.fault = true

/-- R19, R110: no command but STAT behaves differently because of FAULT: with FAULT at any value it answers the same and makes
the same schedule, and FAULT keeps that value unless the command faults. -/
def Obligations.ResultsIndependentOfFault : Prop :=
  ∀ (i : Instr) (s t : State) (b : Bool), i ≠ .stat → exec i s = .next t →
    ∃ r : Response, t.responses = s.responses ++ [r] ∧ t.fault = (r.isFault || s.fault) ∧
      exec i { s with fault := b } = .next { t with fault := r.isFault || b }

/-- R86: a command's result depends on SCHED, LEN, FAULT, the command word and DIN alone. -/
def Obligations.ResultsDependOnInputsAlone : Prop :=
  ∀ (i : Instr) (s s' t : State), SameInputs s s' → exec i s = .next t →
    ∃ (r : Response) (t' : State), exec i s' = .next t' ∧ SameInputs t t' ∧
      t.responses = s.responses ++ [r] ∧ t'.responses = s'.responses ++ [r]

/-- R17: a valid slot is never changed while it stays valid: after any command but a successful LDKEY every valid slot is
valid and holds what it held. -/
def Obligations.ValidSlotsNeverChange : Prop :=
  ∀ (i : Instr) (s t : State), (∀ n, n ≤ 10 → i ≠ .ldkey n) → exec i s = .next t →
    s.len.val ≤ t.len.val ∧ ∀ k, k < s.len.val → readSlot t k = readSlot s k

/-- R128: one response per command, and the run ends with FAULT = 0 exactly when every status is OK. -/
def Obligations.RunWithoutFaults : Prop :=
  ∀ (commands : List (BitVec 8 × Key)) (t : State), runCommands commands State.reset = .next t →
    t.responses.length = commands.length ∧ (t.fault = false ↔ ∀ r ∈ t.responses, r.status = .ok)

/-! Faults -/

/-- R102: ILLEGAL_CMD (code 1) is raised for a reserved opcode and for a non-zero operand that must be 0, by the command word
alone, and for no other word. -/
def Obligations.IllegalCommandFaults : Prop :=
  FaultCode.illegalCmd.code = 1 ∧
    ∀ (s : State) (cmd : BitVec 8) (din : Key),
      (IllegalWord cmd → transaction cmd din s = .next (afterFault .illegalCmd { s with din := din })) ∧
        ∀ t, ¬ IllegalWord cmd → transaction cmd din s = .next t →
          t.responses.getLast? ≠ some (.bare (.raised .illegalCmd))

/-- R103: ROUND_RANGE (code 2) is raised by LDKEY n when n > 10 and by ADDRC n and GWORD n when n = 0 or n > 10, by the command
alone, and by no other command. -/
def Obligations.RoundRangeFaults : Prop :=
  FaultCode.roundRange.code = 2 ∧
    ∀ (i : Instr) (s : State),
      (BadRound i → exec i s = .next (afterFault .roundRange s)) ∧
        ∀ t, ¬ BadRound i → exec i s = .next t → t.responses.getLast? ≠ some (.bare (.raised .roundRange))

/-- R104: NO_KEY (code 3) is raised by INVRK, INVALL and RDLAST when LEN = 0 and otherwise never; LEN is 0 after reset, and
only a successful LDKEY ends that. -/
def Obligations.NoKeyFaults : Prop :=
  FaultCode.noKey.code = 3 ∧ State.reset.len.val = 0 ∧
    (∀ (i : Instr) (s : State), i = .invrk ∨ i = .invall ∨ i = .rdlast → s.len.val = 0 →
      exec i s = .next (afterFault .noKey s)) ∧
    (∀ (i : Instr) (s t : State), exec i s = .next t → t.responses.getLast? = some (.bare (.raised .noKey)) →
      (i = .invrk ∨ i = .invall ∨ i = .rdlast) ∧ s.len.val = 0) ∧
    ∀ (i : Instr) (s t : State), exec i s = .next t →
      (s.len.val ≠ 0 → t.len.val ≠ 0) ∧ (s.len.val = 0 → t.len.val ≠ 0 → ∃ n, n ≤ 10 ∧ i = .ldkey n)

/-- R105: ROUND_ZERO (code 4) is raised by INVRK when LEN ≥ 1 and the current round is 0, and otherwise never; INVALL then
performs no step and completes. -/
def Obligations.RoundZeroFaults : Prop :=
  FaultCode.roundZero.code = 4 ∧
    (∀ (s : State) (cur : RoundKey), currentKey s = some cur → cur.round = 0 →
      exec .invrk s = .next (afterFault .roundZero s) ∧ exec .invall s = .next (afterAnswer (.tagged 0 cur.key) s)) ∧
    ∀ (i : Instr) (s t : State), exec i s = .next t → t.responses.getLast? = some (.bare (.raised .roundZero)) →
      i = .invrk ∧ 1 ≤ s.len.val ∧ ∃ cur, currentKey s = some cur ∧ cur.round = 0

/-- R106: INDEX (code 5) is raised by RDSCH n when n ≥ LEN, and otherwise never. -/
def Obligations.IndexFaults : Prop :=
  FaultCode.index.code = 5 ∧
    (∀ (n : Nat) (s : State), s.len.val ≤ n → exec (.rdsch n) s = .next (afterFault .index s)) ∧
    ∀ (i : Instr) (s t : State), exec i s = .next t → t.responses.getLast? = some (.bare (.raised .index)) →
      ∃ n, i = .rdsch n ∧ s.len.val ≤ n

/-- R107: a command reports the first fault that applies: ILLEGAL_CMD, ROUND_RANGE, then NO_KEY or INDEX, then ROUND_ZERO; with
none of them it is OK. In every state that meets the schedule invariant. -/
def Obligations.FaultPriority : Prop :=
  ∀ (s : State) (cmd : BitVec 8) (din : Key), ScheduleInv s →
    ∃ (t : State) (r : Response), transaction cmd din s = .next t ∧ t.responses = s.responses ++ [r] ∧
      r.status =
        if IllegalWord cmd then .raised .illegalCmd
        else if BadRoundWord cmd then .raised .roundRange
        else if cmd.toNat ∈ [0x20, 0x30, 0x50] ∧ s.len.val = 0 then .raised .noKey
        else if cmd.toNat / 16 = 0x4 ∧ s.len.val ≤ cmd.toNat % 16 then .raised .index
        else if cmd.toNat = 0x20 ∧ (currentKey s).map (·.round.val) = some 0 then .raised .roundZero
        else .ok

/-! Each command completes -/

/-- R83: LDKEY n with n ≤ 10 makes slot 0 the loaded key with tag n, every other slot invalid, LEN 1, answers OK, and changes
nothing else. -/
def Obligations.LdkeyStartsSchedule : Prop :=
  ∀ (s : State) (n : Nat) (h : n ≤ 10),
    exec (.ldkey n) s =
      .next { s with
        sched := #v[some ⟨⟨n, by omega⟩, s.din⟩, none, none, none, none, none, none, none, none, none, none]
        len := 1
        responses := s.responses ++ [.bare .ok] }

/-- R84: INVRK with a current key of round r ≥ 1 writes (r - 1, InvRoundKey) to slot LEN, increments LEN, answers that tag and
key, and changes nothing else; in every state that meets the schedule invariant. -/
def Obligations.InvrkAppendsPredecessor : Prop :=
  ∀ (s : State) (cur : RoundKey), ScheduleInv s → currentKey s = some cur → ∀ hr : 1 ≤ cur.round.val,
    ∃ hl : s.len.val < 11,
      exec .invrk s =
        .next { s with
          sched := s.sched.set s.len.val
            (some ⟨⟨cur.round.val - 1, by omega⟩, invRoundKey cur.key ⟨cur.round.val, hr, by omega⟩⟩) hl
          len := ⟨s.len.val + 1, by omega⟩
          responses := s.responses ++
            [.tagged ⟨cur.round.val - 1, by omega⟩ (invRoundKey cur.key ⟨cur.round.val, hr, by omega⟩)] }

/-- R85: INVALL with a current key of round r appends r keys, each the predecessor of the one before, so that the last has
round 0 and LEN = SCHED[0].round + 1; it answers tag 0 and the last key; valid slots, FAULT, DIN and the host's actions stay. -/
def Obligations.InvallReachesRoundZero : Prop :=
  ∀ (s : State) (cur first : RoundKey), ScheduleInv s → currentKey s = some cur → readSlot s 0 = some first →
    ∃ (t : State) (last : RoundKey), exec .invall s = .next t ∧
      t.len.val = s.len.val + cur.round.val ∧ t.len.val = first.round.val + 1 ∧ ScheduleInv t ∧
      (∀ k, k < s.len.val → readSlot t k = readSlot s k) ∧
      currentKey t = some last ∧ last.round = 0 ∧ t.responses = s.responses ++ [.tagged 0 last.key] ∧
      t.fault = s.fault ∧ SameHostSide s t

/-- R85, R82: from the round-r key of an original key, INVALL recovers the original key and stores every round key between, in
derivation order; in every state that meets the schedule invariant (premise of R130: the current key is a true round key). -/
def Obligations.InvallRecoversOriginalKey : Prop :=
  ∀ (s : State) (original : Key) (r : Nat) (h : r ≤ 10), ScheduleInv s →
    currentKey s = some ⟨⟨r, by omega⟩, forwardSchedule original r h⟩ →
      ∃ t : State, exec .invall s = .next t ∧ t.responses = s.responses ++ [.tagged 0 original] ∧
        ∀ (q : Nat) (hq : q ≤ r),
          readSlot t (s.len.val - 1 + (r - q)) = some ⟨⟨q, by omega⟩, forwardSchedule original q (by omega)⟩

/-- R85: INVALL makes the state that CUR.round successive INVRK commands make, but for the responses, of which its one is their
last. -/
def Obligations.InvallEqualsRepeatedInvrk : Prop :=
  ∀ (s : State) (cur : RoundKey), ScheduleInv s → currentKey s = some cur →
    ∃ t u : State, exec .invall s = .next t ∧
      runCommands (List.replicate cur.round.val (0x20, s.din)) s = .next u ∧
      SameSchedule u t ∧ SameHostSide u t ∧ t.fault = u.fault ∧
      (1 ≤ cur.round.val → t.responses.getLast? = u.responses.getLast?)

/-- R90: RDSCH n with n < LEN answers the tag and key of slot n and changes nothing else; in every state that meets the
schedule invariant. -/
def Obligations.RdschAnswersSlot : Prop :=
  ∀ (s : State) (n : Nat) (hn : n < s.len.val), ScheduleInv s →
    ∃ rk : RoundKey, s.sched[n]'(by omega) = some rk ∧
      exec (.rdsch n) s = .next (afterAnswer (.tagged rk.round rk.key) s)

/-- R91: with LEN ≥ 1 RDLAST answers the tag and key of slot LEN-1 and changes nothing else, as RDSCH (LEN-1) does; in every
state that meets the schedule invariant. -/
def Obligations.RdlastAnswersCurrentKey : Prop :=
  ∀ (s : State) (_ : 1 ≤ s.len.val), ScheduleInv s →
    ∃ rk : RoundKey, s.sched[s.len.val - 1]'(by omega) = some rk ∧
      exec .rdlast s = .next (afterAnswer (.tagged rk.round rk.key) s) ∧
      exec (.rdsch (s.len.val - 1)) s = exec .rdlast s

/-- R92: STAT answers LEN, the current round (0 when LEN = 0), FAULT and thirteen zero bytes, and changes nothing else; in every
state that meets the schedule invariant. -/
def Obligations.StatAnswersStatus : Prop :=
  ∀ s : State, ScheduleInv s →
    (s.len.val = 0 → exec .stat s = .next (afterAnswer (.data
      ⟨⟨0, 0, if s.fault then 1 else 0, 0⟩, ⟨0, 0, 0, 0⟩, ⟨0, 0, 0, 0⟩, ⟨0, 0, 0, 0⟩⟩) s)) ∧
    (1 ≤ s.len.val → ∃ cur : RoundKey, currentKey s = some cur ∧
      exec .stat s = .next (afterAnswer (.data
        ⟨⟨BitVec.ofNat 8 s.len.val, BitVec.ofNat 8 cur.round.val, if s.fault then 1 else 0, 0⟩, ⟨0, 0, 0, 0⟩, ⟨0, 0, 0, 0⟩,
          ⟨0, 0, 0, 0⟩⟩) s))

/-- R75, R55: ROTW answers DIN bytes 1, 2, 3, 0 and twelve zero bytes, and changes nothing else. -/
def Obligations.RotwAnswersRotatedWord : Prop :=
  ∀ s : State,
    exec .rotw s = .next (afterAnswer (.data
      ⟨⟨s.din.byte 1, s.din.byte 2, s.din.byte 3, s.din.byte 0⟩, ⟨0, 0, 0, 0⟩, ⟨0, 0, 0, 0⟩, ⟨0, 0, 0, 0⟩⟩) s)

/-- R76, R55: SUBW answers the S-box entries of DIN bytes 0 to 3 and twelve zero bytes, and changes nothing else. -/
def Obligations.SubwAnswersSubstitutedWord : Prop :=
  ∀ s : State,
    exec .subw s = .next (afterAnswer (.data
      ⟨⟨sbox (s.din.byte 0), sbox (s.din.byte 1), sbox (s.din.byte 2), sbox (s.din.byte 3)⟩, ⟨0, 0, 0, 0⟩, ⟨0, 0, 0, 0⟩,
        ⟨0, 0, 0, 0⟩⟩) s)

/-- R77, R55: ADDRC n with n in 1 to 10 answers DIN bytes 0 to 3 with the round constant added to byte 0, and twelve zero
bytes, and changes nothing else. -/
def Obligations.AddrcAddsRoundConstant : Prop :=
  ∀ (s : State) (n : Nat) (h : 1 ≤ n ∧ n ≤ 10),
    exec (.addrc n) s = .next (afterAnswer (.data
      ⟨⟨s.din.byte 0 ^^^ rcon ⟨n, h⟩, s.din.byte 1, s.din.byte 2, s.din.byte 3⟩, ⟨0, 0, 0, 0⟩, ⟨0, 0, 0, 0⟩,
        ⟨0, 0, 0, 0⟩⟩) s)

/-- R78, R74, R55: GWORD n with n in 1 to 10 answers the key-expansion function of DIN bytes 0 to 3 and twelve zero bytes, and
changes nothing else. -/
def Obligations.GwordAnswersKeyExpansion : Prop :=
  ∀ (s : State) (n : Nat) (h : 1 ≤ n ∧ n ≤ 10),
    exec (.gword n) s = .next (afterAnswer (.data
      ⟨⟨sbox (s.din.byte 1) ^^^ rcon ⟨n, h⟩, sbox (s.din.byte 2), sbox (s.din.byte 3), sbox (s.din.byte 0)⟩, ⟨0, 0, 0, 0⟩,
        ⟨0, 0, 0, 0⟩, ⟨0, 0, 0, 0⟩⟩) s)

/-! Frames -/

/-- Frame of RDSCH, RDLAST, STAT, ROTW, SUBW, ADDRC and GWORD (R37, R41; 40_word_primitives.md section 2): every slot, LEN, DIN and the
host's actions are unchanged; one response is added; FAULT is unchanged unless that response is a fault, and then set. -/
def Obligations.ReadAndWordCommandsFrame : Prop :=
  ∀ (i : Instr) (s t : State),
    (∃ n, i = .rdsch n ∨ i = .addrc n ∨ i = .gword n) ∨ i = .rdlast ∨ i = .stat ∨ i = .rotw ∨ i = .subw →
    exec i s = .next t →
      SameSchedule s t ∧ SameHostSide s t ∧ (∀ k : Nat, readSlot t k = readSlot s k) ∧
        ∃ r : Response, t.responses = s.responses ++ [r] ∧ t.fault = (r.isFault || s.fault)

/-- Frame of INVRK and INVALL (R17, R37, R84, R85): every slot below the old LEN and every slot at or above the new LEN is
unchanged; so are DIN and the host's actions; one response is added; FAULT is unchanged unless that response is a fault. -/
def Obligations.InversionCommandsFrame : Prop :=
  ∀ (i : Instr) (s t : State), i = .invrk ∨ i = .invall → exec i s = .next t →
    s.len.val ≤ t.len.val ∧
      (∀ k : Fin 11, k.val < s.len.val ∨ t.len.val ≤ k.val → t.sched[k.val] = s.sched[k.val]) ∧
      SameHostSide s t ∧
      ∃ r : Response, t.responses = s.responses ++ [r] ∧ t.fault = (r.isFault || s.fault)

/-- Frame of LDKEY (R83): DIN and the host's actions are unchanged and one response is added; a faulting one leaves SCHED and
LEN; a successful one leaves FAULT. -/
def Obligations.LdkeyFrame : Prop :=
  ∀ (n : Nat) (s t : State), exec (.ldkey n) s = .next t →
    SameHostSide s t ∧ (10 < n → SameSchedule s t ∧ t.fault = true) ∧ (n ≤ 10 → t.fault = s.fault) ∧
      ∃ r : Response, t.responses = s.responses ++ [r]

/-! Steps -/

/-- A step runs the decoded command: with a command as the host's next action, DIN is the value on the data-in port, and the
step is `exec` of the command the word decodes to; a word that decodes to none faults (R4, R21, R60). -/
def Obligations.StepRunsDecodedCommand : Prop :=
  ∀ (s : State) (cmd : BitVec 8) (din : Key) (rest : List HostAction), s.host = .command cmd din :: rest →
    (∀ i, decode cmd = .command i → step s = exec i { s with host := rest, din := din }) ∧
      ∀ e, decode cmd = .illegal e →
        step s = .next (afterFault .illegalCmd { s with host := rest, din := din })

/-- R120: a reset makes LEN 0, FAULT 0 and every slot invalid, and leaves the host's later actions. That the record of responses
and the DIN port value start again is the model's choice (log entries 4 and 13). -/
def Obligations.ResetClearsState : Prop :=
  ∀ (s : State) (rest : List HostAction), s.host = .reset :: rest →
    step s = .next { sched := Vector.replicate 11 none, len := 0, fault := false, din := Key.zero, host := rest, responses := [] }

/-- R113: with no action of the host the block idles with its state held. -/
def Obligations.BlockIdlesBetweenCommands : Prop := ∀ s : State, s.host = [] → step s = .next s

/-- The word of a well-formed command placed as the next action is the command the next step runs (R21, R52; log entry 3). -/
def Obligations.PlacedWordRunsNext : Prop :=
  ∀ (s : State) (i : Instr), i.WellFormed →
    step (s.withFetchWord 8 (encode i).toNat) = exec i { s with din := Key.zero }

/-! Ports -/

/-- R123: a command accepted in a cycle is answered LATENCY cycles later, for exactly one cycle, with the transaction's response;
until that cycle has passed the block is not ready; then it is, and the block is in the state the transaction made. That the block is
in that state from the cycle after acceptance is the model's choice (log entry 12): R123 says only, no later than the response cycle.
`ins` are the inputs of the cycles after the accepting one. That `rst` is not asserted in them is the host's duty (R127, R129). -/
def Obligations.HandshakeCarriesTransaction : Prop :=
  ∀ (p : PortState) (i : PortIn) (t : State) (ins : List PortIn),
    accepts p i = true → transaction i.cmd (keyOfPort i.din) p.block = .next t → (∀ j ∈ ins, j.rst = false) →
      1 ≤ latency i.cmd (currentRound p.block) ∧
        (ins.length ≤ latency i.cmd (currentRound p.block) →
          ∃ q : PortState, cycles (i :: ins) p = .next q ∧ q.block = t ∧
            ∀ j : PortIn, j.rst = false →
              (outputs q j).cmdReady = decide (ins.length = latency i.cmd (currentRound p.block)) ∧
              (outputs q j).rspValid = decide (ins.length + 1 = latency i.cmd (currentRound p.block)) ∧
              (ins.length + 1 = latency i.cmd (currentRound p.block) →
                ∀ r, t.responses.getLast? = some r →
                  (outputs q j).rspStatus = r.status.code ∧
                  (∀ d, r = .data d → (outputs q j).dout = portOfKey d) ∧
                  ∀ tag d, r = .tagged tag d →
                    (outputs q j).rspRtag = BitVec.ofNat 4 tag.val ∧ (outputs q j).dout = portOfKey d))

/-- R123, R124: while a command is in progress the block is not ready and accepts no other. That the block's state does not change
in that time is the model's choice, which changes it at acceptance (log entry 12): R123 allows the change up to the response cycle. -/
def Obligations.OneCommandAtATime : Prop :=
  ∀ (p q : PortState) (i : PortIn), p.busy ≠ none → cycle p i = .next q →
    (outputs p i).cmdReady = false ∧ accepts p i = false ∧ q.block = p.block

/-- R126: the latency of a command does not depend on key bytes, DIN or table contents: two ports that accept the same command
word, and for INVALL have the same current round tag or both have none (log entry 9), are busy for equally long. -/
def Obligations.LatencyIndependentOfData : Prop :=
  ∀ (p p' q q' : PortState) (i i' : PortIn),
    accepts p i = true → accepts p' i' = true → i'.cmd = i.cmd →
    (i.cmd = 0x30 → currentRound p'.block = currentRound p.block) →
    cycle p i = .next q → cycle p' i' = .next q' → q'.busy = q.busy

/-- Every port cycle keeps the port invariant: the block's own (R16, R19), and that a busy port holds the response it will present.
The second part is the model's choice, which performs the transaction at acceptance (log entry 12); so is the record of responses
that a reset cycle begins anew (log entry 13). -/
def Obligations.CycleKeepsPortInvariant : Prop :=
  ∀ (p q : PortState) (i : PortIn), PortInv p → cycle p i = .next q → PortInv q

/-- R120, R123: reset at the ports between commands clears the block, which is then ready. That a command presented in the reset cycle
is not accepted is the model's choice (log entry 11). Reset while a command is in progress is refused, the treatment U9 gives what
R129 leaves open; that the response cycle counts as in progress is the model's reading of R123 (log entry 10). -/
def Obligations.ResetAtPorts : Prop :=
  ∀ (p : PortState) (i : PortIn), i.rst = true →
    (p.busy = none → ∃ q, cycle p i = .next q ∧ q.block.len = 0 ∧ q.block.fault = false ∧
      (∀ k, readSlot q.block k = none) ∧ ∀ j : PortIn, j.rst = false → (outputs q j).cmdReady = true) ∧
    (p.busy ≠ none → cycle p i = .refused .resetMidCommand)
end

