-- ==== Sys2Proof/Laws/State.lean ====
section
/-!
SUPPORT. One lemma per field per update of the state, so that no later proof unfolds a record update.
-/
namespace Sys2Proof.Machine

variable (s : State) (r : Response) (c : FaultCode) (rk : RoundKey)

@[simp] theorem setFault_sched : (setFault s).sched = s.sched := rfl
@[simp] theorem setFault_len : (setFault s).len = s.len := rfl
@[simp] theorem setFault_fault : (setFault s).fault = true := rfl
@[simp] theorem setFault_din : (setFault s).din = s.din := rfl
@[simp] theorem setFault_host : (setFault s).host = s.host := rfl
@[simp] theorem setFault_responses : (setFault s).responses = s.responses := rfl

@[simp] theorem respond_sched : (respond r s).sched = s.sched := rfl
@[simp] theorem respond_len : (respond r s).len = s.len := rfl
@[simp] theorem respond_fault : (respond r s).fault = s.fault := rfl
@[simp] theorem respond_din : (respond r s).din = s.din := rfl
@[simp] theorem respond_host : (respond r s).host = s.host := rfl
@[simp] theorem respond_responses : (respond r s).responses = s.responses ++ [r] := rfl

@[simp] theorem raiseFault_sched : (raiseFault c s).sched = s.sched := rfl
@[simp] theorem raiseFault_len : (raiseFault c s).len = s.len := rfl
@[simp] theorem raiseFault_fault : (raiseFault c s).fault = true := rfl
@[simp] theorem raiseFault_din : (raiseFault c s).din = s.din := rfl
@[simp] theorem raiseFault_host : (raiseFault c s).host = s.host := rfl
@[simp] theorem raiseFault_responses :
    (raiseFault c s).responses = s.responses ++ [.bare (.raised c)] := rfl

@[simp] theorem startSchedule_sched :
    (startSchedule rk s).sched = (Vector.replicate 11 none).set 0 (some rk) := rfl
@[simp] theorem startSchedule_len : (startSchedule rk s).len = 1 := rfl
@[simp] theorem startSchedule_fault : (startSchedule rk s).fault = s.fault := rfl
@[simp] theorem startSchedule_din : (startSchedule rk s).din = s.din := rfl
@[simp] theorem startSchedule_host : (startSchedule rk s).host = s.host := rfl
@[simp] theorem startSchedule_responses : (startSchedule rk s).responses = s.responses := rfl

@[simp] theorem resetBlock_sched : (resetBlock s).sched = Vector.replicate 11 none := rfl
@[simp] theorem resetBlock_len : (resetBlock s).len = 0 := rfl
@[simp] theorem resetBlock_fault : (resetBlock s).fault = false := rfl
@[simp] theorem resetBlock_din : (resetBlock s).din = Key.zero := rfl
@[simp] theorem resetBlock_host : (resetBlock s).host = s.host := rfl
@[simp] theorem resetBlock_responses : (resetBlock s).responses = [] := rfl

@[simp] theorem readSlot_respond (k : Nat) : readSlot (respond r s) k = readSlot s k := rfl
@[simp] theorem readSlot_raiseFault (k : Nat) : readSlot (raiseFault c s) k = readSlot s k := rfl
@[simp] theorem currentKey_respond : currentKey (respond r s) = currentKey s := rfl
@[simp] theorem currentKey_raiseFault : currentKey (raiseFault c s) = currentKey s := rfl

/-- The schedule store sees only SCHED and LEN. -/
theorem readSlot_congr (s t : State) (hs : t.sched = s.sched) (hl : t.len = s.len) (k : Nat) :
    readSlot t k = readSlot s k := by
  simp only [readSlot, hs, hl]

/-- The current key depends on SCHED and LEN alone. -/
theorem currentKey_congr (s t : State) (hs : t.sched = s.sched) (hl : t.len = s.len) :
    currentKey t = currentKey s := by
  simp only [currentKey, hl, readSlot_congr s t hs hl]

end Sys2Proof.Machine
end

