-- ==== Sys2Proof/Laws/Store.lean ====
section
/-!
SUPPORT. What the operations on the schedule store can do, each said once: reading a slot, starting a schedule, appending a
slot, and the inversion loop over them.
-/
namespace Sys2Proof.Machine

/-- A slot below LEN reads as the store holds it. -/
theorem readSlot_of_lt {s : State} {k : Nat} (h : k < s.len.val) :
    readSlot s k = s.sched[k]'(by omega) := by
  simp [readSlot, h]

/-- No slot at or above LEN is read. -/
theorem readSlot_of_le {s : State} {k : Nat} (h : s.len.val ≤ k) : readSlot s k = none := by
  have : ¬ k < s.len.val := by omega
  simp [readSlot, this]

/-- Under the schedule invariant every slot below LEN holds a value. -/
theorem readSlot_isSome {s : State} (hs : SlotsMatchLen s) {k : Nat} (h : k < s.len.val) :
    ∃ rk, readSlot s k = some rk := by
  have hk := hs ⟨k, by omega⟩
  simp only [h, decide_true] at hk
  obtain ⟨rk, hrk⟩ := Option.isSome_iff_exists.mp hk
  exact ⟨rk, by rw [readSlot_of_lt h]; exact hrk⟩

/-- Under the schedule invariant there is a current key when LEN ≥ 1. -/
theorem currentKey_isSome {s : State} (hs : SlotsMatchLen s) (h : s.len.val ≠ 0) :
    ∃ rk, currentKey s = some rk :=
  readSlot_isSome hs (by omega)

/-- A current key exists only when LEN ≥ 1. -/
theorem len_pos_of_currentKey {s : State} {rk : RoundKey} (h : currentKey s = some rk) : 1 ≤ s.len.val := by
  rcases Nat.eq_zero_or_pos s.len.val with h0 | h0
  · rw [currentKey, readSlot_of_le (by omega)] at h
    cases h
  · exact h0

/-- The predecessor has the round before and the key that one inversion step gives. -/
theorem predecessor_of_pos {rk : RoundKey} (h : 1 ≤ rk.round.val) :
    predecessor rk = some ⟨⟨rk.round.val - 1, by omega⟩, invRoundKey rk.key ⟨rk.round.val, h, by omega⟩⟩ := by
  simp [predecessor, h]

/-- A key of round 0 has no predecessor. -/
theorem predecessor_of_zero {rk : RoundKey} (h : rk.round.val = 0) : predecessor rk = none := by
  simp [predecessor, h]

/-- A predecessor's round is one less. -/
theorem predecessor_round {rk nk : RoundKey} (h : predecessor rk = some nk) : nk.round.val + 1 = rk.round.val := by
  rcases Nat.eq_zero_or_pos rk.round.val with h0 | h0
  · rw [predecessor_of_zero h0] at h
    cases h
  · rw [predecessor_of_pos h0] at h
    cases h
    simp only
    omega

/-- All an append does: LEN is below 11, slot LEN holds the key, LEN grows by one, nothing else changes. -/
theorem appendSlot_spec {rk : RoundKey} {s t : State} (h : appendSlot rk s = some t) :
    ∃ hl : s.len.val < 11,
      t = { s with sched := s.sched.set s.len.val (some rk) hl, len := ⟨s.len.val + 1, by omega⟩ } := by
  unfold appendSlot at h
  split at h
  · next hl => exact ⟨hl, (Option.some.inj h).symm⟩
  · cases h

/-- An append succeeds when a slot is free. -/
theorem appendSlot_of_lt (rk : RoundKey) {s : State} (hl : s.len.val < 11) :
    appendSlot rk s =
      some { s with sched := s.sched.set s.len.val (some rk) hl, len := ⟨s.len.val + 1, by omega⟩ } := by
  simp [appendSlot, hl]

/-- After an append LEN is one more. -/
theorem appendSlot_len {rk : RoundKey} {s t : State} (h : appendSlot rk s = some t) :
    t.len.val = s.len.val + 1 := by
  obtain ⟨hl, rfl⟩ := appendSlot_spec h
  rfl

/-- An append leaves every valid slot as it was. -/
theorem appendSlot_read {rk : RoundKey} {s t : State} (h : appendSlot rk s = some t) {k : Nat}
    (hk : k < s.len.val) : readSlot t k = readSlot s k := by
  have hlen := appendSlot_len h
  obtain ⟨hl, rfl⟩ := appendSlot_spec h
  rw [readSlot_of_lt (by omega), readSlot_of_lt hk]
  simp only
  rw [Vector.getElem_set_ne]
  omega

/-- The appended key is the current key. -/
theorem appendSlot_current {rk : RoundKey} {s t : State} (h : appendSlot rk s = some t) :
    currentKey t = some rk := by
  have hlen := appendSlot_len h
  obtain ⟨hl, rfl⟩ := appendSlot_spec h
  rw [currentKey, readSlot_of_lt (by omega)]
  simp

/-- Appending the predecessor of the current key keeps the schedule invariant. -/
theorem appendSlot_keeps {rk cur : RoundKey} {s t : State} (hs : ScheduleInv s) (hc : currentKey s = some cur)
    (hp : predecessor cur = some rk) (h : appendSlot rk s = some t) : ScheduleInv t := by
  have hpos := len_pos_of_currentKey hc
  obtain ⟨hl, rfl⟩ := appendSlot_spec h
  rw [currentKey, readSlot_of_lt (by omega)] at hc
  refine ⟨fun k => ?_, fun k hk => ?_⟩
  · have hk := hs.1 k
    simp only [Vector.getElem_set]
    split
    · next he => simp [← he]
    · next he =>
      rw [hk]
      simp only [decide_eq_decide]
      omega
  · simp only at hk
    simp only [Vector.getElem_set]
    split
    · next he =>
      have hne : ¬ s.len.val = k.val := by omega
      have hkv : k.val = s.len.val - 1 := by omega
      simp only [hne, ↓reduceIte]
      simp only [hkv, hc, Option.bind_some, hp]
    · next he =>
      have hne : ¬ s.len.val = k.val := by omega
      simp only [hne, ↓reduceIte]
      exact hs.2 k (by omega)

/-- A new schedule of one key meets the schedule invariant. -/
theorem startSchedule_inv (rk : RoundKey) (s : State) : ScheduleInv (startSchedule rk s) := by
  refine ⟨fun k => ?_, fun k hk => ?_⟩
  · have h1 : ((1 : Fin 12).val) = 1 := rfl
    simp only [startSchedule_sched, startSchedule_len, Vector.getElem_set, Vector.getElem_replicate, h1]
    split
    · next he => simp [← he]
    · next he =>
      have : ¬ k.val < 1 := by omega
      simp [this]
  · have h1 : ((1 : Fin 12).val) = 1 := rfl
    simp only [startSchedule_len, h1] at hk
    omega

/-- The schedule invariant looks at SCHED and LEN alone. -/
theorem scheduleInv_congr {s t : State} (hs : t.sched = s.sched) (hl : t.len = s.len) (h : ScheduleInv s) :
    ScheduleInv t := by
  simp only [ScheduleInv, SlotsMatchLen, SlotsChained, hs, hl]
  exact h

/-- Round tags count down along the schedule (R16). -/
theorem round_add_position {s : State} (hs : ScheduleInv s) {first : RoundKey} (h0 : readSlot s 0 = some first) :
    ∀ (k : Nat) (rk : RoundKey), readSlot s k = some rk → rk.round.val + k = first.round.val
  | 0, rk, h => by
    rw [h0] at h
    cases h
    rfl
  | k + 1, rk, h => by
    have hk : k + 1 < s.len.val := by
      rcases Nat.lt_or_ge (k + 1) s.len.val with hk | hk
      · exact hk
      · rw [readSlot_of_le hk] at h
        cases h
    obtain ⟨prev, hprev⟩ := readSlot_isSome hs.1 (k := k) (by omega)
    have ih := round_add_position hs h0 k prev hprev
    have hstep := hs.2 ⟨k, by omega⟩ hk
    rw [readSlot_of_lt hk] at h
    rw [readSlot_of_lt (by omega)] at hprev
    simp only [hprev, Option.bind_some] at hstep
    rw [h] at hstep
    have := predecessor_round hstep.symm
    omega

/-- A slot is free when the current round is at least 1 (R18). -/
theorem len_add_round_le {s : State} (hs : ScheduleInv s) {cur : RoundKey} (hc : currentKey s = some cur) :
    s.len.val + cur.round.val ≤ 11 := by
  have hpos := len_pos_of_currentKey hc
  obtain ⟨first, h0⟩ := readSlot_isSome hs.1 (k := 0) (by omega)
  have := round_add_position hs h0 _ cur hc
  omega

/-- All one inversion step of the stored schedule does: there is a current key with a predecessor, and that is appended. -/
theorem appendPredecessor_spec {s t : State} (h : appendPredecessor s = some t) :
    ∃ cur nk, currentKey s = some cur ∧ predecessor cur = some nk ∧ appendSlot nk s = some t := by
  simp only [appendPredecessor, Option.bind_eq_some_iff] at h
  obtain ⟨cur, hc, nk, hp, ha⟩ := h
  exact ⟨cur, nk, hc, hp, ha⟩

/-- In a state that meets the invariant the step succeeds when the current round is at least 1. -/
theorem appendPredecessor_of_pos {s : State} (hs : ScheduleInv s) {cur : RoundKey} (hc : currentKey s = some cur)
    (hr : 1 ≤ cur.round.val) :
    ∃ nk t, predecessor cur = some nk ∧ appendSlot nk s = some t ∧ appendPredecessor s = some t := by
  have hle := len_add_round_le hs hc
  obtain ⟨nk, hp⟩ : ∃ nk, predecessor cur = some nk := ⟨_, predecessor_of_pos hr⟩
  have ha := appendSlot_of_lt nk (s := s) (by omega)
  exact ⟨nk, _, hp, ha, by simp only [appendPredecessor, hc, hp, Option.bind_some]; exact ha⟩

/-- An append leaves FAULT, DIN, the host's actions and the responses. -/
theorem appendSlot_frame {rk : RoundKey} {s t : State} (h : appendSlot rk s = some t) :
    t.fault = s.fault ∧ t.din = s.din ∧ t.host = s.host ∧ t.responses = s.responses := by
  obtain ⟨hl, rfl⟩ := appendSlot_spec h
  exact ⟨rfl, rfl, rfl, rfl⟩

/-- All the inversion loop does, from any state: LEN grows by the count, valid slots stay, and nothing but the schedule changes. -/
theorem invertTimes_frame : ∀ {count : Nat} {s t : State}, invertTimes count s = some t →
    t.len.val = s.len.val + count ∧ (∀ k, k < s.len.val → readSlot t k = readSlot s k) ∧
      t.fault = s.fault ∧ t.din = s.din ∧ t.host = s.host ∧ t.responses = s.responses
  | 0, s, t, h => by
    cases h
    exact ⟨rfl, fun _ _ => rfl, rfl, rfl, rfl, rfl⟩
  | count + 1, s, t, h => by
    simp only [invertTimes, Option.bind_eq_some_iff] at h
    obtain ⟨u, hu, ht⟩ := h
    obtain ⟨cur, nk, -, -, ha⟩ := appendPredecessor_spec hu
    have hlen := appendSlot_len ha
    obtain ⟨h1, h2, h3, h4⟩ := appendSlot_frame ha
    obtain ⟨il, ir, i1, i2, i3, i4⟩ := invertTimes_frame ht
    refine ⟨by omega, fun k hk => ?_, i1.trans h1, i2.trans h2, i3.trans h3, i4.trans h4⟩
    rw [ir k (by omega), appendSlot_read ha hk]

/-- The inversion loop keeps the schedule invariant, and the current round falls by the count. -/
theorem invertTimes_keeps : ∀ {count : Nat} {s t : State} {cur : RoundKey}, ScheduleInv s → currentKey s = some cur →
    invertTimes count s = some t →
      ScheduleInv t ∧ ∃ last, currentKey t = some last ∧ last.round.val + count = cur.round.val
  | 0, s, t, cur, hs, hc, h => by
    cases h
    exact ⟨hs, cur, hc, rfl⟩
  | count + 1, s, t, cur, hs, hc, h => by
    simp only [invertTimes, Option.bind_eq_some_iff] at h
    obtain ⟨u, hu, ht⟩ := h
    obtain ⟨cur', nk, hc', hp, ha⟩ := appendPredecessor_spec hu
    rw [hc] at hc'
    cases hc'
    obtain ⟨hi, last, hl, hr⟩ := invertTimes_keeps (appendSlot_keeps hs hc hp ha) (appendSlot_current ha) ht
    have := predecessor_round hp
    exact ⟨hi, last, hl, by omega⟩

/-- In a state that meets the invariant the loop runs to its end when the count is at most the current round. -/
theorem invertTimes_of_le : ∀ {count : Nat} {s : State} {cur : RoundKey}, ScheduleInv s → currentKey s = some cur →
    count ≤ cur.round.val → ∃ t, invertTimes count s = some t
  | 0, s, _, _, _, _ => ⟨s, rfl⟩
  | count + 1, s, cur, hs, hc, hle => by
    obtain ⟨nk, u, hp, ha, hu⟩ := appendPredecessor_of_pos hs hc (by omega)
    have := predecessor_round hp
    obtain ⟨t, ht⟩ := invertTimes_of_le (appendSlot_keeps hs hc hp ha) (appendSlot_current ha) (count := count) (by omega)
    exact ⟨t, by simp only [invertTimes, hu, Option.bind_some]; exact ht⟩

/-- The inversion loop depends on SCHED and LEN alone, and changes nothing else. -/
theorem invertTimes_congr : ∀ (count : Nat) (s t : State), t.sched = s.sched → t.len = s.len → ∀ u : State,
    invertTimes count s = some u → invertTimes count t = some { t with sched := u.sched, len := u.len }
  | 0, s, t, hs, hl, u, h => by
    cases h
    simp only [invertTimes, ← hs, ← hl]
  | count + 1, s, t, hs, hl, u, h => by
    simp only [invertTimes, Option.bind_eq_some_iff] at h ⊢
    obtain ⟨v, hv, h⟩ := h
    obtain ⟨cur, nk, hc, hp, ha⟩ := appendPredecessor_spec hv
    refine ⟨{ t with sched := v.sched, len := v.len }, ?_,
      invertTimes_congr count v { t with sched := v.sched, len := v.len } rfl rfl u h⟩
    obtain ⟨hlt, rfl⟩ := appendSlot_spec ha
    simp only [appendPredecessor, currentKey_congr s t hs hl, hc, hp, Option.bind_some, appendSlot, hs, hl, hlt, dite_true]

/-- The store after reset meets the schedule invariant. -/
theorem resetBlock_scheduleInv (s : State) : ScheduleInv (resetBlock s) := by
  have h0 : ((0 : Fin 12).val) = 0 := rfl
  refine ⟨fun k => ?_, fun k hk => ?_⟩
  · simp only [resetBlock_sched, resetBlock_len, Vector.getElem_replicate, h0, Nat.not_lt_zero, decide_false]
    rfl
  · simp only [resetBlock_len, h0] at hk
    omega

end Sys2Proof.Machine
end

