-- ==== Sys2Proof/Laws/Exec.lean ====
section
/-!
SUPPORT. What each command can do when it answers a next state, each said once, and what any command can do.
-/
namespace Sys2Proof.Machine

/-- One inversion step is the loop run once. -/
theorem invertTimes_one (s : State) : invertTimes 1 s = appendPredecessor s := by
  simp only [invertTimes]
  cases appendPredecessor s <;> rfl

/-- All `LDKEY n` can do (R83). -/
theorem execLdkey_cases {n : Nat} {s t : State} (h : execLdkey n s = .next t) :
    (∃ hn : n ≤ 10, t = respond (.bare .ok) (startSchedule ⟨⟨n, by omega⟩, s.din⟩ s)) ∨
      (10 < n ∧ t = raiseFault .roundRange s) := by
  unfold execLdkey at h
  split at h
  · next hn => exact .inl ⟨hn, (Host.Outcome.next.inj h).symm⟩
  · next hn => exact .inr ⟨by omega, (Host.Outcome.next.inj h).symm⟩

/-- All `INVRK` can do (R84). -/
theorem execInvrk_cases {s t : State} (h : execInvrk s = .next t) :
    (s.len.val = 0 ∧ t = raiseFault .noKey s) ∨
      (∃ cur, currentKey s = some cur ∧ predecessor cur = none ∧ t = raiseFault .roundZero s) ∨
      (∃ cur nk u, currentKey s = some cur ∧ predecessor cur = some nk ∧ appendSlot nk s = some u ∧
        t = respond (.tagged nk.round nk.key) u) := by
  unfold execInvrk at h
  split at h
  · next h0 => exact .inl ⟨h0, (Host.Outcome.next.inj h).symm⟩
  · split at h
    · cases h
    · next cur hc =>
      split at h
      · next hp => exact .inr (.inl ⟨cur, hc, hp, (Host.Outcome.next.inj h).symm⟩)
      · next nk hp =>
        split at h
        · cases h
        · next u ha => exact .inr (.inr ⟨cur, nk, u, hc, hp, ha, (Host.Outcome.next.inj h).symm⟩)

/-- All `INVALL` can do (R85). -/
theorem execInvall_cases {s t : State} (h : execInvall s = .next t) :
    (s.len.val = 0 ∧ t = raiseFault .noKey s) ∨
      (∃ cur last u, currentKey s = some cur ∧ invertTimes cur.round.val s = some u ∧ currentKey u = some last ∧
        t = respond (.tagged last.round last.key) u) := by
  unfold execInvall at h
  split at h
  · next h0 => exact .inl ⟨h0, (Host.Outcome.next.inj h).symm⟩
  · split at h
    · cases h
    · next cur hc =>
      split at h
      · cases h
      · next u hu =>
        split at h
        · cases h
        · next last hl => exact .inr ⟨cur, last, u, hc, hu, hl, (Host.Outcome.next.inj h).symm⟩

/-- All the answer of a slot can do. -/
theorem answerSlot_cases {slot : Option RoundKey} {s t : State} (h : answerSlot slot s = .next t) :
    ∃ rk, slot = some rk ∧ t = respond (.tagged rk.round rk.key) s := by
  unfold answerSlot at h
  split at h
  · cases h
  · next rk => exact ⟨rk, rfl, (Host.Outcome.next.inj h).symm⟩

/-- All `RDSCH n` can do (R90). -/
theorem execRdsch_cases {n : Nat} {s t : State} (h : execRdsch n s = .next t) :
    (s.len.val ≤ n ∧ t = raiseFault .index s) ∨
      (∃ rk, readSlot s n = some rk ∧ t = respond (.tagged rk.round rk.key) s) := by
  unfold execRdsch at h
  split at h
  · next h0 => exact .inl ⟨h0, (Host.Outcome.next.inj h).symm⟩
  · exact .inr (answerSlot_cases h)

/-- All `RDLAST` can do (R91). -/
theorem execRdlast_cases {s t : State} (h : execRdlast s = .next t) :
    (s.len.val = 0 ∧ t = raiseFault .noKey s) ∨
      (∃ rk, currentKey s = some rk ∧ t = respond (.tagged rk.round rk.key) s) := by
  unfold execRdlast at h
  split at h
  · next h0 => exact .inl ⟨h0, (Host.Outcome.next.inj h).symm⟩
  · exact .inr (answerSlot_cases h)

/-- All `STAT` can do (R92). -/
theorem execStat_cases {s t : State} (h : execStat s = .next t) :
    (s.len.val = 0 ∧ t = respond (.data (statData s.len 0 s.fault)) s) ∨
      (∃ cur, currentKey s = some cur ∧ t = respond (.data (statData s.len cur.round s.fault)) s) := by
  unfold execStat at h
  split at h
  · next h0 => exact .inl ⟨h0, (Host.Outcome.next.inj h).symm⟩
  · split at h
    · cases h
    · next cur hc => exact .inr ⟨cur, hc, (Host.Outcome.next.inj h).symm⟩

/-- All `ADDRC n` can do (R77). -/
theorem execAddrc_cases {n : Nat} {s t : State} (h : execAddrc n s = .next t) :
    (∃ hn : 1 ≤ n ∧ n ≤ 10, t = answerWord (addRcon s.din.w0 ⟨n, hn⟩) s) ∨
      (¬ (1 ≤ n ∧ n ≤ 10) ∧ t = raiseFault .roundRange s) := by
  unfold execAddrc at h
  split at h
  · next hn => exact .inl ⟨hn, (Host.Outcome.next.inj h).symm⟩
  · next hn => exact .inr ⟨hn, (Host.Outcome.next.inj h).symm⟩

/-- All `GWORD n` can do (R78). -/
theorem execGword_cases {n : Nat} {s t : State} (h : execGword n s = .next t) :
    (∃ hn : 1 ≤ n ∧ n ≤ 10, t = answerWord (gWord s.din.w0 ⟨n, hn⟩) s) ∨
      (¬ (1 ≤ n ∧ n ≤ 10) ∧ t = raiseFault .roundRange s) := by
  unfold execGword at h
  split at h
  · next hn => exact .inl ⟨hn, (Host.Outcome.next.inj h).symm⟩
  · next hn => exact .inr ⟨hn, (Host.Outcome.next.inj h).symm⟩

/-- The ways a command can end in a next state: it faults; it answers and leaves the state; it starts a schedule; it appends
inverted keys. In each it gives one response. -/
inductive CommandEffect (i : Instr) (s t : State) : Prop where
  | faults (c : FaultCode) (h : t = raiseFault c s)
  | answers (r : Response) (hr : r.isFault = false) (h : t = respond r s)
  | loads (n : Nat) (hi : i = .ldkey n) (hn : n ≤ 10)
      (h : t = respond (.bare .ok) (startSchedule ⟨⟨n, by omega⟩, s.din⟩ s))
  | inverts (cur last : RoundKey) (count : Nat) (u : State) (hc : currentKey s = some cur)
      (hu : invertTimes count s = some u) (hl : currentKey u = some last)
      (h : t = respond (.tagged last.round last.key) u)

/-- What any command can do when it answers a next state. -/
theorem exec_effect {i : Instr} {s t : State} (h : exec i s = .next t) : CommandEffect i s t := by
  cases i with
  | ldkey n =>
    rcases execLdkey_cases h with ⟨hn, rfl⟩ | ⟨-, rfl⟩
    · exact .loads n rfl hn rfl
    · exact .faults _ rfl
  | invrk =>
    rcases execInvrk_cases h with ⟨-, rfl⟩ | ⟨cur, -, -, rfl⟩ | ⟨cur, nk, u, hc, hp, ha, rfl⟩
    · exact .faults _ rfl
    · exact .faults _ rfl
    · refine .inverts cur nk 1 u hc ?_ (appendSlot_current ha) rfl
      simp only [invertTimes_one, appendPredecessor, hc, hp, Option.bind_some, ha]
  | invall =>
    rcases execInvall_cases h with ⟨-, rfl⟩ | ⟨cur, last, u, hc, hu, hl, rfl⟩
    · exact .faults _ rfl
    · exact .inverts cur last _ u hc hu hl rfl
  | rdsch n =>
    rcases execRdsch_cases h with ⟨-, rfl⟩ | ⟨rk, -, rfl⟩
    · exact .faults _ rfl
    · exact .answers _ rfl rfl
  | rdlast =>
    rcases execRdlast_cases h with ⟨-, rfl⟩ | ⟨rk, -, rfl⟩
    · exact .faults _ rfl
    · exact .answers _ rfl rfl
  | stat =>
    rcases execStat_cases h with ⟨-, rfl⟩ | ⟨rk, -, rfl⟩
    · exact .answers _ rfl rfl
    · exact .answers _ rfl rfl
  | rotw => exact .answers _ rfl (Host.Outcome.next.inj h).symm
  | subw => exact .answers _ rfl (Host.Outcome.next.inj h).symm
  | addrc n =>
    rcases execAddrc_cases h with ⟨hn, rfl⟩ | ⟨-, rfl⟩
    · exact .answers _ rfl rfl
    · exact .faults _ rfl
  | gword n =>
    rcases execGword_cases h with ⟨hn, rfl⟩ | ⟨-, rfl⟩
    · exact .answers _ rfl rfl
    · exact .faults _ rfl

/-- What one transaction can do: a word that decodes runs its command, any other faults `ILLEGAL_CMD` (R60, R102). -/
theorem transaction_cases {cmd : BitVec 8} {din : Key} {s t : State} (h : transaction cmd din s = .next t) :
    (∃ i, decode cmd = .command i ∧ exec i { s with din := din } = .next t) ∨
      (∃ e, decode cmd = .illegal e ∧ t = raiseFault .illegalCmd { s with din := din }) := by
  unfold transaction at h
  simp only at h
  split at h
  · next i hi => exact .inl ⟨i, hi, h⟩
  · next e he => exact .inr ⟨e, he, (Host.Outcome.next.inj h).symm⟩

end Sys2Proof.Machine
end

