-- ==== Sys2Proof/Laws/PerInstr.lean ====
section
/-!
SUPPORT. The statement made of each command as syntax: its command word lies in its row of spec/opcode_table.json and in no
other row (30_encoding.md R52, R59).
-/
namespace Sys2Proof.Laws.EncodesRow

/-- The word of a well-formed command selects the command's own row, and every row it selects is that row. -/
def Statement (i : Instr) : Prop :=
  i.WellFormed → SelectsRow (encode i) i ∧ ∀ j ∈ tableRows, SelectsRow (encode i) j → rowMatch j = rowMatch i

/-- The rows of a word with a free operand field, checked at each of its 16 values. -/
theorem of_operand {f : Nat → Instr} (hf : ∀ n, (f n).WellFormed → n ≤ 15)
    (hall : ∀ n : Fin 16, SelectsRow (encode (f n.val)) (f n.val) ∧
      ∀ j ∈ tableRows, SelectsRow (encode (f n.val)) j → rowMatch j = rowMatch (f n.val)) (n : Nat) :
    Statement (f n) := fun h => hall ⟨n, by have := hf n h; omega⟩

theorem ldkey (n : Nat) : Statement (.ldkey n) :=
  of_operand (f := .ldkey) (fun _ h => h) (by decide) n

theorem invrk : Statement .invrk := fun _ => by decide

theorem invall : Statement .invall := fun _ => by decide

theorem rdsch (n : Nat) : Statement (.rdsch n) :=
  of_operand (f := .rdsch) (fun _ h => h) (by decide) n

theorem rdlast : Statement .rdlast := fun _ => by decide

theorem stat : Statement .stat := fun _ => by decide

theorem rotw : Statement .rotw := fun _ => by decide

theorem subw : Statement .subw := fun _ => by decide

theorem addrc (n : Nat) : Statement (.addrc n) :=
  of_operand (f := .addrc) (fun _ h => h) (by decide) n

theorem gword (n : Nat) : Statement (.gword n) :=
  of_operand (f := .gword) (fun _ h => h) (by decide) n

end Sys2Proof.Laws.EncodesRow
end

