-- ==== Sys2Proof/Laws/Step.lean ====
section
/-!
SUPPORT. What one step and one port cycle can do, each said once.
-/
namespace Sys2Proof.Machine

/-- With no action to come the block idles (R113). -/
theorem step_of_idle {s : State} (h : s.host = []) : step s = .next s := by
  simp only [step, h]

/-- A step performs the host's next action. -/
theorem step_of_cons {s : State} {a : HostAction} {rest : List HostAction} (h : s.host = a :: rest) :
    step s = perform a { s with host := rest } := by
  simp only [step, h]

/-- All a step can do: idle, reset, or one transaction. -/
theorem step_cases {s t : State} (h : step s = .next t) :
    (s.host = [] ∧ t = s) ∨
      (∃ rest, s.host = .reset :: rest ∧ t = resetBlock { s with host := rest }) ∨
      (∃ cmd din rest, s.host = .command cmd din :: rest ∧ transaction cmd din { s with host := rest } = .next t) := by
  cases hh : s.host with
  | nil =>
    rw [step_of_idle hh] at h
    exact .inl ⟨rfl, (Host.Outcome.next.inj h).symm⟩
  | cons a rest =>
    rw [step_of_cons hh] at h
    cases a with
    | reset => exact .inr (.inl ⟨rest, rfl, (Host.Outcome.next.inj h).symm⟩)
    | command cmd din => exact .inr (.inr ⟨cmd, din, rest, rfl, h⟩)

/-- All a port cycle can do: reset an idle block, count down a command in progress, end its response, accept a command, or idle
(R120, R123). -/
theorem cycle_cases {p q : PortState} {i : PortIn} (h : cycle p i = .next q) :
    (p.busy = none ∧ i.rst = true ∧ q = { block := resetBlock p.block, busy := none, cycle := p.cycle + 1 }) ∨
      (∃ left, p.busy = some (left + 1) ∧ q = { p with busy := some left, cycle := p.cycle + 1 }) ∨
      (p.busy = some 0 ∧ q = { p with busy := none, cycle := p.cycle + 1 }) ∨
      (∃ t, p.busy = none ∧ i.cmdValid = true ∧ transaction i.cmd (keyOfPort i.din) p.block = .next t ∧
        q = { block := t, busy := some (latency i.cmd (currentRound p.block) - 1), cycle := p.cycle + 1 }) ∨
      (p.busy = none ∧ i.cmdValid = false ∧ q = { p with cycle := p.cycle + 1 }) := by
  unfold cycle at h
  split at h
  · cases h
  · next hb hr => exact .inl ⟨hb, hr, (Host.Outcome.next.inj h).symm⟩
  · next left hb hr => exact .inr (.inl ⟨left, hb, (Host.Outcome.next.inj h).symm⟩)
  · next hb hr => exact .inr (.inr (.inl ⟨hb, (Host.Outcome.next.inj h).symm⟩))
  · next hb hr =>
    split at h
    · next hv =>
      split at h
      · next t ht => exact .inr (.inr (.inr (.inl ⟨t, hb, hv, ht, (Host.Outcome.next.inj h).symm⟩)))
      · cases h
      · cases h
    · next hv => exact .inr (.inr (.inr (.inr ⟨hb, by simpa using hv, (Host.Outcome.next.inj h).symm⟩)))

end Sys2Proof.Machine
end

