-- ==== Sys2Proof/Tests/Slice0.lean ====
section
/-!
SUPPORT. Tests of single steps, with results taken from spec/95_test_vectors.md and the examples of the command rules, and a
witness for the hypotheses of each statement of Certificates/Slice0/Obligations.lean.
-/
namespace Sys2Proof.Tests

open Sys2Proof Sys2Proof.Machine

/-! Helpers -/

/-- The answer of a command that ends in a next state. -/
def answer (r : Result) : Option Response :=
  match r with
  | .next t => t.responses.getLast?
  | _ => none

/-- LEN and FAULT after a command that ends in a next state. -/
def status (r : Result) : Option (Nat × Bool) :=
  match r with
  | .next t => some (t.len.val, t.fault)
  | _ => none

/-- Slot k after a command that ends in a next state. -/
def slotAfter (r : Result) (k : Nat) : Option RoundKey :=
  match r with
  | .next t => readSlot t k
  | _ => none

/-- The state after LDKEY of a key from reset. -/
def loaded (round : Round) (key : BitVec 128) : State := startSchedule ⟨round, keyOfPort key⟩ State.reset

/-- A state with a word on the data-in port, above bits that a word command ignores. -/
def withWord (w : BitVec 32) : State := { State.reset with din := keyOfPort (w ++ 0xFFFFFFFFFFFFFFFFFFFFFFFF#96) }

/-- The data of a word answer. -/
def wordAnswer (w : BitVec 32) : Option Response := some (.data (keyOfPort (w ++ 0x0#96)))

/-- A tag and key answer. -/
def keyAnswer (round : Round) (key : BitVec 128) : Option Response := some (.tagged round (keyOfPort key))

/-- The round-10 key of schedule A, 95_test_vectors.md section 3. -/
def a10 : BitVec 128 := 0xD014F9A8C9EE2589E13F0CC8B6630CA6

/-- A state with two valid slots, K10 and K9 of schedule A. -/
def twoSlots : State :=
  { State.reset with
    sched := #v[some ⟨10, keyOfPort a10⟩, some ⟨9, keyOfPort 0xAC7766F319FADC2128D12941575C006E⟩, none, none, none, none, none,
      none, none, none, none]
    len := 2 }

/-- The host presents one command. -/
def hostCommand (cmd : BitVec 8) (din : Key) (s : State) : State := { s with host := [.command cmd din] }

/-! Well-formedness: an operand that does not fit its field is refused -/

theorem test_wf_ldkey : (Instr.ldkey 16).wellFormed = false ∧ (Instr.ldkey 15).wellFormed = true := by decide
theorem test_wf_rdsch : (Instr.rdsch 16).wellFormed = false ∧ (Instr.rdsch 15).wellFormed = true := by decide
theorem test_wf_addrc : (Instr.addrc 16).wellFormed = false ∧ (Instr.addrc 15).wellFormed = true := by decide
theorem test_wf_gword : (Instr.gword 16).wellFormed = false ∧ (Instr.gword 15).wellFormed = true := by decide

/-! Decoding, words written out bit by bit from R52 -/

theorem test_decode_ldkey : decode 0b00011010 = .command (.ldkey 10) := by decide
theorem test_decode_ldkey_out_of_range : decode 0b00011011 = .command (.ldkey 11) := by decide
theorem test_decode_invrk : decode 0b00100000 = .command .invrk := by decide
theorem test_decode_invall : decode 0b00110000 = .command .invall := by decide
theorem test_decode_rdsch : decode 0b01001010 = .command (.rdsch 10) := by decide
theorem test_decode_rdlast : decode 0b01010000 = .command .rdlast := by decide
theorem test_decode_stat : decode 0b01100000 = .command .stat := by decide
theorem test_decode_rotw : decode 0b10000000 = .command .rotw := by decide
theorem test_decode_subw : decode 0b10010000 = .command .subw := by decide
theorem test_decode_addrc : decode 0b10100001 = .command (.addrc 1) := by decide
theorem test_decode_gword : decode 0b10111010 = .command (.gword 10) := by decide

/-- Reserved opcodes (R56; 95_test_vectors.md section 5). -/
theorem test_decode_reserved : decode 0x00 = .illegal .reservedOpcode ∧ decode 0x70 = .illegal .reservedOpcode ∧
    decode 0xC0 = .illegal .reservedOpcode ∧ decode 0xFF = .illegal .reservedOpcode := by decide

/-- A non-zero operand that must be zero (R57; 95_test_vectors.md section 5). -/
theorem test_decode_must_be_zero : decode 0x21 = .illegal .nonzeroOperand ∧ decode 0x3F = .illegal .nonzeroOperand ∧
    decode 0x51 = .illegal .nonzeroOperand ∧ decode 0x61 = .illegal .nonzeroOperand ∧
    decode 0x81 = .illegal .nonzeroOperand ∧ decode 0x91 = .illegal .nonzeroOperand := by decide

theorem test_table_word : decodeTableWord 8 0x1A = some (.ldkey 10) ∧ decodeTableWord 8 0x20 = some .invrk ∧
    decodeTableWord 8 0x00 = none := by decide

/-- No two rows of the opcode table share a word (R59). -/
theorem test_rows_disjoint : tableRows.Pairwise (fun i j => rowMask i &&& rowMask j &&& (rowMatch i ^^^ rowMatch j) ≠ 0) := by
  decide

/-! The commands -/

/-- R75, example; the bytes above the word are ignored. -/
theorem test_rotw : answer (exec .rotw (withWord 0x575C006E)) = wordAnswer 0x5C006E57 := by decide
/-- 95_test_vectors.md section 2.1. -/
theorem test_rotw_byte_zero : answer (exec .rotw (withWord 0xAA000000)) = wordAnswer 0x000000AA := by decide
/-- R76, example. -/
theorem test_subw : answer (exec .subw (withWord 0x5C006E57)) = wordAnswer 0x4A639F5B := by decide
/-- 95_test_vectors.md section 2.2, row F. -/
theorem test_subw_last_row : answer (exec .subw (withWord 0xF0F1F2F3)) = wordAnswer 0x8CA1890D := by decide
/-- R77, example. -/
theorem test_addrc : answer (exec (.addrc 10) (withWord 0x4A639F5B)) = wordAnswer 0x7C639F5B := by decide
/-- R77: round 0 faults. -/
theorem test_addrc_zero : answer (exec (.addrc 0) (withWord 0)) = some (.bare (.raised .roundRange)) := by decide
/-- R78, example. -/
theorem test_gword : answer (exec (.gword 10) (withWord 0x575C006E)) = wordAnswer 0x7C639F5B := by decide
/-- 95_test_vectors.md section 2.4: round 11 faults. -/
theorem test_gword_eleven : status (exec (.gword 11) (withWord 0)) = some (0, true) := by decide

/-- R83, example. -/
theorem test_ldkey : slotAfter (exec (.ldkey 10) { State.reset with din := keyOfPort a10 }) 0 = some ⟨10, keyOfPort a10⟩ := by
  decide
/-- 95_test_vectors.md section 3, reload: slot 1 is invalid again. -/
theorem test_ldkey_discards : slotAfter (exec (.ldkey 3) twoSlots) 1 = none ∧ status (exec (.ldkey 3) twoSlots) = some (1, false) := by
  decide
/-- R84, example. -/
theorem test_invrk : answer (exec .invrk (loaded 10 a10)) = keyAnswer 9 0xAC7766F319FADC2128D12941575C006E := by decide
/-- R84, corner case: a wrong round tag. -/
theorem test_invrk_wrong_tag : answer (exec .invrk (loaded 9 0x13111D7FE3944A17F307A78B4D2B30C5)) =
    keyAnswer 8 0x799932D1F08557681093ED9CBE2C974E := by decide
/-- R85, example: the original key of schedule A, LEN 11. -/
theorem test_invall : answer (exec .invall (loaded 10 a10)) = keyAnswer 0 0x2B7E151628AED2A6ABF7158809CF4F3C ∧
    status (exec .invall (loaded 10 a10)) = some (11, false) := by decide
/-- 95_test_vectors.md section 3: from round 3 of schedule B. -/
theorem test_invall_from_three : answer (exec .invall (loaded 3 0xB6FF744ED2C2C9BF6C590CBF0469BF41)) =
    keyAnswer 0 0x000102030405060708090A0B0C0D0E0F := by decide
/-- 95_test_vectors.md section 4, row 2. -/
theorem test_rdsch : answer (exec (.rdsch 1) twoSlots) = keyAnswer 9 0xAC7766F319FADC2128D12941575C006E := by decide
/-- R106: the position LEN is not valid. -/
theorem test_rdsch_at_len : answer (exec (.rdsch 2) twoSlots) = some (.bare (.raised .index)) := by decide
/-- R91, example. -/
theorem test_rdlast : answer (exec .rdlast twoSlots) = keyAnswer 9 0xAC7766F319FADC2128D12941575C006E := by decide
/-- R104. -/
theorem test_rdlast_no_key : status (exec .rdlast State.reset) = some (0, true) := by decide
/-- R92: LEN 2, round 9, FAULT 1. -/
theorem test_stat : answer (exec .stat { twoSlots with fault := true }) =
    some (.data (keyOfPort 0x02090100000000000000000000000000)) := by decide
/-- R92, example: after reset all bytes are zero. -/
theorem test_stat_reset : answer (exec .stat State.reset) = some (.data (keyOfPort 0x0)) := by decide
/-- 95_test_vectors.md section 6: INVRK with n = 1 after reset gives ILLEGAL_CMD, not NO_KEY. -/
theorem test_illegal_before_no_key : answer (transaction 0x21 Key.zero State.reset) = some (.bare (.raised .illegalCmd)) := by
  decide
/-- R39, example of 95_test_vectors.md section 5. -/
theorem test_port_bytes : (keyOfPort a10).byte 0 = 0xD0 ∧ (keyOfPort a10).byte 1 = 0x14 ∧ (keyOfPort a10).byte 15 = 0xA6 ∧
    portOfKey (keyOfPort a10) = a10 := by decide

/-- R61: the text of a line with a comment. -/
theorem test_parse_addrc : parseLine
    ['A', 'D', 'D', 'R', 'C', ' ', '1', '0', ',', ' ', '4', 'a', '6', '3', '9', 'F', '5', 'B', ' ', ';', 'x'] =
      some (some (.addrc 10 ⟨0x4A, 0x63, 0x9F, 0x5B⟩)) := by decide
/-- R61: an operand above 15, a missing digit and an unknown mnemonic are not of the text form. -/
theorem test_parse_refuses : parseLine ['R', 'D', 'S', 'C', 'H', ' ', '1', '6'] = none ∧
    parseLine ['R', 'O', 'T', 'W', ' ', '0', '1', '0', '2', '0', '3', '0'] = none ∧
    parseLine ['N', 'O', 'P'] = none := by decide

/-! Witnesses for the hypotheses of the statements -/

theorem witness_DecodeEncodeRoundTrip : (Instr.ldkey 0).WellFormed ∧ (Instr.gword 15).WellFormed ∧ Instr.stat.WellFormed :=
  ⟨by simp [Instr.WellFormed], by simp [Instr.WellFormed], trivial⟩

theorem witness_EncodeDecodeRoundTrip : decode 0x4F = .command (.rdsch 15) := by decide

theorem witness_RoundConstantsDouble : (1 ≤ 1 ∧ 1 + 1 ≤ 10) ∧ (1 ≤ 9 ∧ 9 + 1 ≤ 10) := by decide

theorem witness_InverseUndoesForwardStep : (1 ≤ 1 ∧ 1 ≤ 10) ∧ (1 ≤ 10 ∧ 10 ≤ 10) := by decide

theorem witness_loaded_inv : BlockInv (loaded 10 a10) ∧ BlockInv (loaded 0 0) := by decide

theorem witness_twoSlots_inv : BlockInv twoSlots := by decide

theorem witness_StepKeepsInvariant : BlockInv (hostCommand 0x20 Key.zero twoSlots) ∧
    ∃ t, step (hostCommand 0x20 Key.zero twoSlots) = .next t := ⟨by decide, _, rfl⟩

/-- A reachable state with two valid slots: K10 of schedule A loaded and inverted once. -/
theorem witness_ReachableSchedulesDescend : ∃ s, Reachable s ∧ 0 < 1 ∧ 1 < s.len.val :=
  ⟨_, .command 0x20 Key.zero (.command 0x1A (keyOfPort a10) .reset rfl) rfl, by decide, by decide⟩

theorem witness_LengthMatchesRounds : ScheduleInv twoSlots ∧ 1 ≤ twoSlots.len.val := by decide

theorem witness_EveryCommandWordAnswered : BlockInv State.reset ∧ BlockInv twoSlots := by decide

theorem witness_FaultChangesOnlyFault : (∃ t, transaction 0x00 Key.zero twoSlots = .next t) ∧
    (∃ t, transaction 0x1A Key.zero twoSlots = .next t) := ⟨⟨_, rfl⟩, ⟨_, rfl⟩⟩

theorem witness_FaultStaysUntilReset : ∃ t, step (hostCommand 0x60 Key.zero { twoSlots with fault := true }) = .next t ∧
    (hostCommand 0x60 Key.zero { twoSlots with fault := true }).host.head? ≠ some .reset ∧
    (hostCommand 0x60 Key.zero { twoSlots with fault := true }).fault = true := ⟨_, rfl, by decide, rfl⟩

theorem witness_ResultsIndependentOfFault : Instr.invrk ≠ .stat ∧ (∃ t, exec .invrk twoSlots = .next t) ∧
    ∃ t, exec (.rdsch 9) twoSlots = .next t := ⟨by decide, ⟨_, rfl⟩, ⟨_, rfl⟩⟩

theorem witness_ResultsDependOnInputsAlone : SameInputs twoSlots { twoSlots with responses := [.bare .ok] } ∧
    ∃ t, exec .stat twoSlots = .next t := ⟨by decide, _, rfl⟩

theorem witness_ValidSlotsNeverChange : (∀ n, n ≤ 10 → Instr.invall ≠ .ldkey n) ∧ (∀ n, n ≤ 10 → Instr.ldkey 11 ≠ .ldkey n) ∧
    (∃ t, exec .invall twoSlots = .next t) ∧ ∃ t, exec (.ldkey 11) twoSlots = .next t :=
  ⟨fun _ _ h => (by cases h), fun n hn h => (by cases h; omega), ⟨_, rfl⟩, ⟨_, rfl⟩⟩

theorem witness_RunWithoutFaults : (∃ t, runCommands [(0x1A, keyOfPort a10), (0x20, Key.zero)] State.reset = .next t) ∧
    ∃ t, runCommands [(0x20, Key.zero)] State.reset = .next t := ⟨⟨_, rfl⟩, ⟨_, rfl⟩⟩

theorem witness_IllegalCommandFaults : IllegalWord 0x00 ∧ IllegalWord 0x0F ∧ IllegalWord 0xFF ∧ IllegalWord 0x21 ∧
    IllegalWord 0x9F ∧ ¬ IllegalWord 0x90 ∧ ¬ IllegalWord 0x1F ∧ ∃ t, transaction 0x1F Key.zero State.reset = .next t :=
  ⟨by decide, by decide, by decide, by decide, by decide, by decide, by decide, _, rfl⟩

theorem witness_RoundRangeFaults : BadRound (.ldkey 11) ∧ ¬ BadRound (.ldkey 10) ∧ BadRound (.addrc 0) ∧ BadRound (.addrc 11) ∧
    ¬ BadRound (.addrc 1) ∧ ¬ BadRound (.gword 10) ∧ BadRound (.gword 0) ∧ ∃ t, exec (.gword 10) State.reset = .next t := by
  refine ⟨?_, ?_, ?_, ?_, ?_, ?_, ?_, _, rfl⟩ <;> simp only [BadRound] <;> decide

theorem witness_NoKeyFaults : State.reset.len.val = 0 ∧ twoSlots.len.val ≠ 0 ∧
    answer (exec .invall State.reset) = some (.bare (.raised .noKey)) ∧
    (∃ t, exec (.ldkey 0) State.reset = .next t ∧ t.len.val ≠ 0) := ⟨by decide, by decide, by decide, _, rfl, by decide⟩

theorem witness_RoundZeroFaults : currentKey (loaded 0 a10) = some ⟨0, keyOfPort a10⟩ ∧
    answer (exec .invrk (loaded 0 a10)) = some (.bare (.raised .roundZero)) := by decide

theorem witness_IndexFaults : twoSlots.len.val ≤ 2 ∧ State.reset.len.val ≤ 0 ∧
    answer (exec (.rdsch 15) twoSlots) = some (.bare (.raised .index)) := by decide

theorem witness_FaultPriority : ScheduleInv State.reset ∧ ScheduleInv twoSlots ∧ ScheduleInv (loaded 0 a10) := by decide

theorem witness_LdkeyStartsSchedule : 0 ≤ 10 ∧ 10 ≤ 10 := by decide

theorem witness_InvrkAppendsPredecessor :
    (ScheduleInv twoSlots ∧ currentKey twoSlots = some ⟨9, keyOfPort 0xAC7766F319FADC2128D12941575C006E⟩ ∧
      1 ≤ (9 : Round).val) ∧
    ScheduleInv (loaded 1 a10) ∧ currentKey (loaded 1 a10) = some ⟨1, keyOfPort a10⟩ ∧ 1 ≤ (1 : Round).val := by decide

theorem witness_InvallReachesRoundZero :
    (ScheduleInv twoSlots ∧ currentKey twoSlots = some ⟨9, keyOfPort 0xAC7766F319FADC2128D12941575C006E⟩ ∧
      readSlot twoSlots 0 = some ⟨10, keyOfPort a10⟩) ∧
    ScheduleInv (loaded 0 a10) ∧ currentKey (loaded 0 a10) = some ⟨0, keyOfPort a10⟩ ∧
      readSlot (loaded 0 a10) 0 = some ⟨0, keyOfPort a10⟩ := by decide

/-- K10 of the original key of schedule A is the key of the schedule's last row (95_test_vectors.md section 3). -/
theorem witness_InvallRecoversOriginalKey : ScheduleInv (loaded 10 a10) ∧ currentKey (loaded 10 a10) =
    some ⟨⟨10, by omega⟩, forwardSchedule (keyOfPort 0x2B7E151628AED2A6ABF7158809CF4F3C) 10 (by omega)⟩ := by decide

theorem witness_InvallEqualsRepeatedInvrk :
    (ScheduleInv twoSlots ∧ currentKey twoSlots = some ⟨9, keyOfPort 0xAC7766F319FADC2128D12941575C006E⟩) ∧
    ScheduleInv (loaded 0 a10) ∧ currentKey (loaded 0 a10) = some ⟨0, keyOfPort a10⟩ := by decide

theorem witness_RdschAnswersSlot : 0 < twoSlots.len.val ∧ 1 < twoSlots.len.val ∧ ScheduleInv twoSlots := by decide

theorem witness_RdlastAnswersCurrentKey : 1 ≤ (loaded 10 a10).len.val ∧ ScheduleInv (loaded 10 a10) := by decide

theorem witness_StatAnswersStatus : (ScheduleInv State.reset ∧ State.reset.len.val = 0) ∧
    ScheduleInv (loaded 10 a10) ∧ 1 ≤ (loaded 10 a10).len.val := by decide

theorem witness_AddrcAndGword : (1 ≤ 1 ∧ 1 ≤ 10) ∧ (1 ≤ 10 ∧ 10 ≤ 10) := by decide

theorem witness_ReadAndWordCommandsFrame : (∃ t, exec (.rdsch 0) twoSlots = .next t) ∧ (∃ t, exec .rdlast twoSlots = .next t) ∧
    (∃ t, exec .stat twoSlots = .next t) ∧ (∃ t, exec .rotw twoSlots = .next t) ∧ (∃ t, exec .subw twoSlots = .next t) ∧
    (∃ t, exec (.addrc 1) twoSlots = .next t) ∧ ∃ t, exec (.gword 0) twoSlots = .next t :=
  ⟨⟨_, rfl⟩, ⟨_, rfl⟩, ⟨_, rfl⟩, ⟨_, rfl⟩, ⟨_, rfl⟩, ⟨_, rfl⟩, ⟨_, rfl⟩⟩

theorem witness_InversionCommandsFrame : (∃ t, exec .invrk twoSlots = .next t) ∧ ∃ t, exec .invall twoSlots = .next t :=
  ⟨⟨_, rfl⟩, ⟨_, rfl⟩⟩

theorem witness_LdkeyFrame : (∃ t, exec (.ldkey 10) twoSlots = .next t) ∧ ∃ t, exec (.ldkey 11) twoSlots = .next t :=
  ⟨⟨_, rfl⟩, ⟨_, rfl⟩⟩

theorem witness_StepRunsDecodedCommand :
    ((hostCommand 0x1A (keyOfPort a10) State.reset).host = .command 0x1A (keyOfPort a10) :: [] ∧
      decode 0x1A = .command (.ldkey 10)) ∧
    (hostCommand 0x0A Key.zero State.reset).host = .command 0x0A Key.zero :: [] ∧ decode 0x0A = .illegal .reservedOpcode := by
  decide

theorem witness_ResetClearsState : { twoSlots with host := [.reset, .command 0x60 Key.zero] }.host =
    .reset :: [.command 0x60 Key.zero] := rfl

theorem witness_BlockIdlesBetweenCommands : twoSlots.host = [] := rfl

theorem witness_PlacedWordRunsNext : (Instr.addrc 15).WellFormed ∧ Instr.invall.WellFormed :=
  ⟨by simp [Instr.WellFormed], trivial⟩

/-- Ports that can accept a command. -/
def idlePorts : PortState := { PortState.reset with block := twoSlots }

/-- Ports with a command in its response cycle. -/
def busyPorts : PortState := { PortState.reset with block := { twoSlots with responses := [.bare .ok] }, busy := some 0 }

/-- The host presents STAT. -/
def presentStat : PortIn := { rst := false, cmdValid := true, cmd := 0x60, din := 0 }

/-- The host presents INVALL. -/
def presentInvall : PortIn := { rst := false, cmdValid := true, cmd := 0x30, din := 0 }

/-- The host holds its lines low. -/
def quiet : PortIn := { rst := false, cmdValid := false, cmd := 0, din := 0 }

theorem witness_HandshakeCarriesTransaction : accepts idlePorts presentStat = true ∧
    (∃ t, transaction presentStat.cmd (keyOfPort presentStat.din) idlePorts.block = .next t ∧
      ∃ r, t.responses.getLast? = some r) ∧
    (∀ j ∈ [quiet, quiet], j.rst = false) ∧ ([] : List PortIn).length ≤ latency presentStat.cmd (currentRound idlePorts.block) ∧
    [quiet].length ≤ latency presentStat.cmd (currentRound idlePorts.block) :=
  ⟨by decide, ⟨_, rfl, _, rfl⟩, by decide, Nat.zero_le _, by simp [latency]⟩

theorem witness_OneCommandAtATime : busyPorts.busy ≠ none ∧ ∃ q, cycle busyPorts presentStat = .next q := ⟨by decide, _, rfl⟩

theorem witness_LatencyIndependentOfData : accepts idlePorts presentInvall = true ∧
    accepts { idlePorts with cycle := 7 } presentInvall = true ∧
    (presentInvall.cmd = 0x30 → currentRound { idlePorts with cycle := 7 }.block = currentRound idlePorts.block) ∧
    (∃ q, cycle idlePorts presentInvall = .next q) ∧ ∃ q, cycle { idlePorts with cycle := 7 } presentInvall = .next q :=
  ⟨by decide, by decide, fun _ => rfl, ⟨_, rfl⟩, ⟨_, rfl⟩⟩

theorem witness_CycleKeepsPortInvariant : PortInv idlePorts ∧ PortInv busyPorts ∧ (∃ q, cycle idlePorts presentStat = .next q) ∧
    ∃ q, cycle busyPorts quiet = .next q := ⟨by decide, by decide, ⟨_, rfl⟩, ⟨_, rfl⟩⟩

theorem witness_ResetAtPorts : { quiet with rst := true }.rst = true ∧ idlePorts.busy = none ∧ busyPorts.busy ≠ none := by decide

end Sys2Proof.Tests
end

section
/-!
SUPPORT. The transaction and the handshake run forwards: what a step does with the host's command, what a port cycle does when it
accepts a command and while one is in progress, and the two statements of 00_scope.md that follow (O52, O56).
-/
namespace Sys2Proof.Machine

/-! One transaction -/

/-- A word that decodes runs its command, with the data operand in place (R4, R60). -/
theorem transaction_of_command {cmd : BitVec 8} {i : Instr} (h : decode cmd = .command i) (din : Key) (s : State) :
    transaction cmd din s = exec i { s with din := din } := by
  simp only [transaction, h]

/-- A word that decodes to no command faults `ILLEGAL_CMD` (R102). -/
theorem transaction_of_illegal {cmd : BitVec 8} {e : DecodeError} (h : decode cmd = .illegal e) (din : Key) (s : State) :
    transaction cmd din s = .next (raiseFault .illegalCmd { s with din := din }) := by
  simp only [transaction, h]

/-- A step with a command as the host's next action is that command's transaction. -/
theorem step_of_command {s : State} {cmd : BitVec 8} {din : Key} {rest : List HostAction}
    (h : s.host = .command cmd din :: rest) : step s = transaction cmd din { s with host := rest } :=
  step_of_cons h

/-- Settles O52: a step with a command to come is its transaction, and that goes by what the word decodes to. -/
theorem stepRunsDecodedCommand : Obligations.StepRunsDecodedCommand := by
  intro s cmd din rest hhost
  rw [step_of_command hhost]
  exact ⟨fun i hi => transaction_of_command hi din _, fun e he => transaction_of_illegal he din _⟩

/-! The handshake -/

/-- In how many cycles the block is ready again: none when it is ready now, one in the response cycle (R123). -/
def PortState.cyclesLeft (p : PortState) : Nat :=
  match p.busy with
  | none => 0
  | some left => left + 1

@[simp] theorem PortState.cyclesLeft_of_none {p : PortState} (h : p.busy = none) : p.cyclesLeft = 0 := by
  simp only [cyclesLeft, h]

@[simp] theorem PortState.cyclesLeft_of_some {p : PortState} {left : Nat} (h : p.busy = some left) :
    p.cyclesLeft = left + 1 := by
  simp only [cyclesLeft, h]

/-- Without reset the block is ready exactly when no cycle is left. -/
theorem cmdReady_eq_cyclesLeft (p : PortState) {i : PortIn} (hr : i.rst = false) :
    cmdReady p i = decide (p.cyclesLeft = 0) := by
  cases hb : p.busy with
  | none => simp [cmdReady, hb, hr]
  | some left => simp [cmdReady, hb]

/-- A response is presented exactly when one cycle is left. -/
theorem rspValid_eq_cyclesLeft (p : PortState) : rspValid p = decide (p.cyclesLeft = 1) := by
  cases hb : p.busy with
  | none => simp [rspValid, hb]
  | some left => simp [rspValid, hb, Bool.beq_eq_decide_eq]

/-- A command takes at least one cycle (R6). -/
theorem one_le_latency (cmd : BitVec 8) (round : Option Round) : 1 ≤ latency cmd round :=
  Nat.le_add_right 1 _

/-- A command is accepted when the block is not busy, is not reset, and the host presents one (R123). -/
theorem accepts_iff {p : PortState} {i : PortIn} :
    accepts p i = true ↔ i.cmdValid = true ∧ p.busy = none ∧ i.rst = false := by
  simp [accepts, cmdReady]

/-- An accepting cycle performs the transaction and leaves LATENCY cycles to go. -/
theorem cycle_of_accepts {p : PortState} {i : PortIn} {t : State} (ha : accepts p i = true)
    (ht : transaction i.cmd (keyOfPort i.din) p.block = .next t) :
    ∃ q, cycle p i = .next q ∧ q.block = t ∧ q.cyclesLeft = latency i.cmd (currentRound p.block) := by
  obtain ⟨hv, hb, hr⟩ := accepts_iff.mp ha
  refine ⟨{ block := t, busy := some (latency i.cmd (currentRound p.block) - 1), cycle := p.cycle + 1 }, ?_, rfl, ?_⟩
  · simp only [cycle, hb, hr, hv, ht, if_true]
  · rw [PortState.cyclesLeft_of_some rfl]
    exact Nat.sub_add_cancel (one_le_latency ..)

/-- A cycle of a busy block without reset counts down by one and leaves the block's state. -/
theorem cycle_of_busy {p : PortState} {i : PortIn} {n : Nat} (hn : p.cyclesLeft = n + 1) (hr : i.rst = false) :
    ∃ q, cycle p i = .next q ∧ q.block = p.block ∧ q.cyclesLeft = n := by
  cases hb : p.busy with
  | none => simp [hb] at hn
  | some left =>
    obtain rfl : left = n := by simpa [hb] using hn
    cases left with
    | zero => exact ⟨{ p with busy := none, cycle := p.cycle + 1 }, by simp only [cycle, hb, hr], rfl, rfl⟩
    | succ left => exact ⟨{ p with busy := some left, cycle := p.cycle + 1 }, by simp only [cycle, hb, hr], rfl, rfl⟩

/-- The cycles of a busy block without reset count down one by one, until the block is ready, and leave its state. -/
theorem cycles_of_busy : ∀ {ins : List PortIn} {p : PortState}, (∀ j ∈ ins, j.rst = false) → ins.length ≤ p.cyclesLeft →
    ∃ q, cycles ins p = .next q ∧ q.block = p.block ∧ q.cyclesLeft + ins.length = p.cyclesLeft
  | [], p, _, _ => ⟨p, rfl, rfl, rfl⟩
  | i :: ins, p, hrst, hlen => by
    obtain ⟨hi, hins⟩ := List.forall_mem_cons.mp hrst
    rw [List.length_cons] at hlen ⊢
    obtain ⟨n, hn⟩ : ∃ n, p.cyclesLeft = n + 1 := Nat.exists_eq_add_of_le' (by omega)
    obtain ⟨u, hu, hub, hul⟩ := cycle_of_busy hn hi
    obtain ⟨q, hq, hqb, hql⟩ := cycles_of_busy (p := u) hins (by omega)
    exact ⟨q, by simp only [cycles, hu, hq], hqb.trans hub, by omega⟩

/-- The status line carries the response's status (R51). -/
theorem responsePorts_status (r : Response) (n : Nat) : (responsePorts r n).1 = r.status.code := by
  cases r <;> rfl

/-- While a response is presented the lines carry the block's last response (R123). -/
theorem responseLines_of_rspValid {p : PortState} {r : Response} (hv : rspValid p = true)
    (hr : p.block.responses.getLast? = some r) : responseLines p = responsePorts r p.cycle := by
  simp only [responseLines, lastResponse, hv, hr]

/-- Settles O56: the accepting cycle leaves LATENCY cycles to go, each later cycle one fewer, and the number left says when the
block is ready and when the response stands on the lines. -/
theorem handshakeCarriesTransaction : Obligations.HandshakeCarriesTransaction := by
  intro p i t ins hacc htrans hrst
  refine ⟨one_le_latency .., fun hlen => ?_⟩
  obtain ⟨u, hu, hut, hul⟩ := cycle_of_accepts hacc htrans
  obtain ⟨q, hq, hqb, hql⟩ := cycles_of_busy (p := u) hrst (by omega)
  refine ⟨q, by simp only [cycles, hu, hq], hqb.trans hut, fun j hj => ⟨?_, ?_, fun hlast r hresp => ?_⟩⟩
  · rw [outputs, cmdReady_eq_cyclesLeft q hj, decide_eq_decide]
    omega
  · rw [outputs, rspValid_eq_cyclesLeft q, decide_eq_decide]
    omega
  · have hvalid : rspValid q = true := by
      rw [rspValid_eq_cyclesLeft q, decide_eq_true_eq]
      omega
    have hlines : responseLines q = responsePorts r q.cycle :=
      responseLines_of_rspValid hvalid (by rw [hqb, hut, hresp])
    simp only [outputs, hlines]
    refine ⟨responsePorts_status r q.cycle, ?_, ?_⟩
    · rintro d rfl
      rfl
    · rintro tag d rfl
      exact ⟨rfl, rfl⟩

end Sys2Proof.Machine
end

section
/-!
SUPPORT. What every command adds to the state, what its result depends on, and the invariants that follow (10_state.md R14 to
R25).
-/
namespace Sys2Proof.Machine

/-! One command, one response -/

/-- `t` is `s` after one answer `r`: the response is recorded, FAULT is set when `r` is a fault and else stays, and the host's
side stays. The schedule is left open. -/
structure Answered (r : Response) (s t : State) : Prop where
  responses : t.responses = s.responses ++ [r]
  fault : t.fault = (r.isFault || s.fault)
  hostSide : SameHostSide s t

/-- A fault answers its code (R100). -/
theorem answered_raiseFault (c : FaultCode) (s : State) : Answered (.bare (.raised c)) s (raiseFault c s) :=
  ⟨rfl, rfl, rfl, rfl⟩

/-- Every command gives one response, which sets FAULT exactly when it is a fault (R4, R100). -/
theorem exec_answered {i : Instr} {s t : State} (h : exec i s = .next t) : ∃ r, Answered r s t := by
  cases exec_effect h with
  | faults c ht => exact ⟨_, ht ▸ answered_raiseFault c s⟩
  | answers r hr ht =>
    subst ht
    exact ⟨r, rfl, by simp [hr], rfl, rfl⟩
  | loads n hi hn ht =>
    subst ht
    exact ⟨_, rfl, rfl, rfl, rfl⟩
  | inverts cur last count u hc hu hl ht =>
    subst ht
    obtain ⟨-, -, hfault, hdin, hhost, hresp⟩ := invertTimes_frame hu
    exact ⟨.tagged last.round last.key, by simp [hresp], hfault, hdin, hhost⟩

/-- Every command word gives one response, whether or not it selects a command (R4). -/
theorem transaction_answered {cmd : BitVec 8} {din : Key} {s t : State} (h : transaction cmd din s = .next t) :
    ∃ r, Answered r { s with din := din } t := by
  rcases transaction_cases h with ⟨i, -, hi⟩ | ⟨e, -, rfl⟩
  · exact exec_answered hi
  · exact ⟨_, answered_raiseFault _ _⟩

/-! The invariant -/

/-- One answer keeps FAULT the record of the faults answered (R19). -/
theorem faultInv_of_answered {r : Response} {s t : State} (hs : FaultInv s) (h : Answered r s t) : FaultInv t := by
  rw [FaultInv, h.fault, h.responses, hs, List.any_append, Bool.or_comm]
  simp

/-- Every command keeps the schedule invariant (R16). -/
theorem exec_scheduleInv {i : Instr} {s t : State} (hs : ScheduleInv s) (h : exec i s = .next t) : ScheduleInv t := by
  cases exec_effect h with
  | faults c ht => exact ht ▸ scheduleInv_congr rfl rfl hs
  | answers r hr ht => exact ht ▸ scheduleInv_congr rfl rfl hs
  | loads n hi hn ht => exact ht ▸ scheduleInv_congr rfl rfl (startSchedule_inv _ s)
  | inverts cur last count u hc hu hl ht => exact ht ▸ scheduleInv_congr rfl rfl (invertTimes_keeps hs hc hu).1

/-- Every transaction keeps the block's invariant. -/
theorem transaction_blockInv {cmd : BitVec 8} {din : Key} {s t : State} (hs : BlockInv s)
    (h : transaction cmd din s = .next t) : BlockInv t := by
  obtain ⟨hsched, hfault⟩ := hs
  have hdin : ScheduleInv { s with din := din } := scheduleInv_congr rfl rfl hsched
  obtain ⟨r, hr⟩ := transaction_answered h
  refine ⟨?_, faultInv_of_answered (s := { s with din := din }) hfault hr⟩
  rcases transaction_cases h with ⟨i, -, hi⟩ | ⟨e, -, rfl⟩
  · exact exec_scheduleInv hdin hi
  · exact scheduleInv_congr rfl rfl hdin

/-- A reset block meets the block's invariant: no slot is valid, and no response is recorded. -/
theorem resetBlock_blockInv (s : State) : BlockInv (resetBlock s) :=
  ⟨resetBlock_scheduleInv s, rfl⟩

/-- Settles O20: a step idles, resets the block, or performs one transaction, and each keeps the invariant. -/
theorem stepKeepsInvariant : Obligations.StepKeepsInvariant := by
  intro s t hs h
  rcases step_cases h with ⟨-, rfl⟩ | ⟨rest, -, rfl⟩ | ⟨cmd, din, rest, -, ht⟩
  · exact hs
  · exact resetBlock_blockInv _
  · exact transaction_blockInv (s := { s with host := rest }) hs ht

/-- Settles O22, by induction on the way to the state. -/
theorem reachableStatesMeetInvariant : Obligations.ReachableStatesMeetInvariant := by
  intro s h
  induction h with
  | reset => exact resetBlock_blockInv State.reset
  | command cmd din _ ht ih => exact transaction_blockInv ih ht

/-- Settles O19: the reset state is a reset block, and no command is in progress at the ports after reset. -/
theorem resetMeetsInvariant : Obligations.ResetMeetsInvariant :=
  ⟨resetBlock_blockInv State.reset, resetBlock_blockInv State.reset, fun h => absurd rfl h⟩

/-- Settles O23: the tags count down from slot 0 to slot LEN-1, so LEN - 1 steps lie between the two rounds. -/
theorem lengthMatchesRounds : Obligations.LengthMatchesRounds := by
  intro s hs hlen
  obtain ⟨first, hfirst⟩ := readSlot_isSome hs.1 (k := 0) (by omega)
  obtain ⟨cur, hcur⟩ := currentKey_isSome hs.1 (by omega)
  have hcount := round_add_position hs hfirst _ cur hcur
  have hle := first.round.isLt
  exact ⟨first, cur, hfirst, hcur, by omega, by omega, by omega, fun _ => by omega⟩

/-! FAULT -/

/-- Settles O26: idling keeps FAULT, and a transaction answers once, which never clears it. -/
theorem faultStaysUntilReset : Obligations.FaultStaysUntilReset := by
  intro s t h hreset hfault
  rcases step_cases h with ⟨-, rfl⟩ | ⟨rest, hhost, -⟩ | ⟨cmd, din, rest, -, ht⟩
  · exact hfault
  · exact absurd (by rw [hhost]; rfl) hreset
  · obtain ⟨r, hr⟩ := transaction_answered ht
    rw [hr.fault]
    simp [hfault]

/-! What a result depends on -/

/-- An append depends on SCHED and LEN alone, and changes nothing else. -/
theorem appendSlot_congr {rk : RoundKey} {s s' u : State} (same : SameSchedule s s') (h : appendSlot rk s = some u) :
    appendSlot rk s' = some { s' with sched := u.sched, len := u.len } := by
  obtain ⟨hlt, rfl⟩ := appendSlot_spec h
  simp only [appendSlot, same.1, same.2, hlt, dite_true]

/-- The command ends in `s'` as it ended in `s` with `t`: with the same schedule and the same response. -/
def AnswersAlike (i : Instr) (s t s' : State) : Prop :=
  ∃ (r : Response) (t' : State), exec i s' = .next t' ∧ SameSchedule t t' ∧
    t.responses = s.responses ++ [r] ∧ t'.responses = s'.responses ++ [r]

section
variable {i : Instr} {s u s' : State} {r : Response}

/-- A fault raised in both states is answered alike. -/
theorem answersAlike_raiseFault (same : SameSchedule s s') {c : FaultCode} (h : exec i s' = .next (raiseFault c s')) :
    AnswersAlike i s (raiseFault c s) s' :=
  ⟨_, _, h, same, rfl, rfl⟩

/-- An answer that leaves the schedule in both states is answered alike. -/
theorem answersAlike_respond (same : SameSchedule s s') (h : exec i s' = .next (respond r s')) :
    AnswersAlike i s (respond r s) s' :=
  ⟨_, _, h, same, rfl, rfl⟩

/-- An answer given once both states hold the new schedule of `u` is answered alike. -/
theorem answersAlike_newSchedule (hu : u.responses = s.responses)
    (h : exec i s' = .next (respond r { s' with sched := u.sched, len := u.len })) : AnswersAlike i s (respond r u) s' :=
  ⟨r, _, h, ⟨rfl, rfl⟩, by rw [respond_responses, hu], rfl⟩

end

/-- Any command ends alike in two states with the same schedule and DIN, `STAT` if they also share FAULT (R19, R86). -/
theorem exec_answersAlike {i : Instr} {s t s' : State} (same : SameSchedule s s') (hdin : s'.din = s.din)
    (hstat : i = .stat → s'.fault = s.fault) (h : exec i s = .next t) : AnswersAlike i s t s' := by
  have hlen := same.2
  have hcurrent := currentKey_congr s s' same.1 same.2
  have pos {cur : RoundKey} (hc : currentKey s = some cur) : s.len.val ≠ 0 := Nat.ne_of_gt (len_pos_of_currentKey hc)
  cases i with
  | ldkey n =>
    rcases execLdkey_cases h with ⟨hn, rfl⟩ | ⟨hn, rfl⟩
    · refine answersAlike_newSchedule rfl ?_
      simp only [exec, execLdkey, keyOperand, startSchedule, hn, hdin, dite_true]
    · refine answersAlike_raiseFault same ?_
      simp only [exec, execLdkey, Nat.not_le.mpr hn, dite_false]
  | invrk =>
    rcases execInvrk_cases h with ⟨h0, rfl⟩ | ⟨cur, hc, hp, rfl⟩ | ⟨cur, nk, u, hc, hp, ha, rfl⟩
    · refine answersAlike_raiseFault same ?_
      simp only [exec, execInvrk, hlen, h0, if_true]
    · refine answersAlike_raiseFault same ?_
      simp only [exec, execInvrk, hlen, pos hc, hcurrent, hc, hp, if_false]
    · obtain ⟨-, -, -, hresp⟩ := appendSlot_frame ha
      refine answersAlike_newSchedule hresp ?_
      simp only [exec, execInvrk, hlen, pos hc, hcurrent, hc, hp, appendSlot_congr same ha, if_false]
  | invall =>
    rcases execInvall_cases h with ⟨h0, rfl⟩ | ⟨cur, last, u, hc, hu, hl, rfl⟩
    · refine answersAlike_raiseFault same ?_
      simp only [exec, execInvall, hlen, h0, if_true]
    · obtain ⟨-, -, -, -, -, hresp⟩ := invertTimes_frame hu
      have hu' := invertTimes_congr _ s s' same.1 same.2 u hu
      have hl' := (currentKey_congr u { s' with sched := u.sched, len := u.len } rfl rfl).trans hl
      refine answersAlike_newSchedule hresp ?_
      simp only [exec, execInvall, hlen, pos hc, hcurrent, hc, hu', hl', if_false]
  | rdsch n =>
    rcases execRdsch_cases h with ⟨h0, rfl⟩ | ⟨rk, hrk, rfl⟩
    · refine answersAlike_raiseFault same ?_
      simp only [exec, execRdsch, hlen, h0, if_true]
    · have hn : ¬ s.len.val ≤ n := fun hle => by simp [readSlot_of_le hle] at hrk
      refine answersAlike_respond same ?_
      simp only [exec, execRdsch, hlen, hn, readSlot_congr s s' same.1 same.2, hrk, answerSlot, if_false]
  | rdlast =>
    rcases execRdlast_cases h with ⟨h0, rfl⟩ | ⟨rk, hrk, rfl⟩
    · refine answersAlike_raiseFault same ?_
      simp only [exec, execRdlast, hlen, h0, if_true]
    · refine answersAlike_respond same ?_
      simp only [exec, execRdlast, hlen, pos hrk, hcurrent, hrk, answerSlot, if_false]
  | stat =>
    have hfault := hstat rfl
    rcases execStat_cases h with ⟨h0, rfl⟩ | ⟨cur, hc, rfl⟩
    · refine answersAlike_respond same ?_
      simp only [exec, execStat, hlen, h0, hfault, if_true]
    · refine answersAlike_respond same ?_
      simp only [exec, execStat, hlen, pos hc, hcurrent, hc, hfault, if_false]
  | rotw =>
    cases h
    refine answersAlike_respond same ?_
    simp only [exec, execRotw, answerWord, wordOperand, hdin]
  | subw =>
    cases h
    refine answersAlike_respond same ?_
    simp only [exec, execSubw, answerWord, wordOperand, hdin]
  | addrc n =>
    rcases execAddrc_cases h with ⟨hn, rfl⟩ | ⟨hn, rfl⟩
    · refine answersAlike_respond same ?_
      simp only [exec, execAddrc, answerWord, wordOperand, hdin, hn, and_self, dite_true]
    · refine answersAlike_raiseFault same ?_
      simp only [exec, execAddrc, hn, dite_false]
  | gword n =>
    rcases execGword_cases h with ⟨hn, rfl⟩ | ⟨hn, rfl⟩
    · refine answersAlike_respond same ?_
      simp only [exec, execGword, answerWord, wordOperand, hdin, hn, and_self, dite_true]
    · refine answersAlike_raiseFault same ?_
      simp only [exec, execGword, hn, dite_false]

/-- All that follows when a command answers in `s`: in a state with the same schedule and DIN it answers the same, and in both
states the answer says what becomes of FAULT and leaves the host's side. -/
theorem exec_sameAnswer {i : Instr} {s t s' : State} (same : SameSchedule s s') (hdin : s'.din = s.din)
    (hstat : i = .stat → s'.fault = s.fault) (h : exec i s = .next t) :
    ∃ (r : Response) (t' : State), exec i s' = .next t' ∧ SameSchedule t t' ∧ Answered r s t ∧ Answered r s' t' := by
  obtain ⟨r, t', h', hsame, hresp, hresp'⟩ := exec_answersAlike same hdin hstat h
  obtain ⟨q, hq⟩ := exec_answered h
  obtain ⟨q', hq'⟩ := exec_answered h'
  obtain rfl : r = q := by simpa [hresp] using hq.responses
  obtain rfl : r = q' := by simpa [hresp'] using hq'.responses
  exact ⟨r, t', h', hsame, hq, hq'⟩

/-- Settles O27: a command other than STAT gives the same schedule and response whatever FAULT is. -/
theorem resultsIndependentOfFault : Obligations.ResultsIndependentOfFault := by
  intro i s t b hi h
  obtain ⟨r, t', h', ⟨hsched, hlen⟩, hr, hr'⟩ :=
    exec_sameAnswer (s := s) (s' := { s with fault := b }) ⟨rfl, rfl⟩ rfl (fun he => absurd he hi) h
  obtain ⟨hdin, hhost⟩ := hr.hostSide
  obtain ⟨hdin', hhost'⟩ := hr'.hostSide
  have hfault' := hr'.fault
  have hresp' := hr'.responses.trans hr.responses.symm
  have ht' : t' = { t with fault := r.isFault || b } := by
    cases t'
    simp only at hsched hlen hfault' hdin' hhost' hresp'
    simp only [hsched, hlen, hfault', hdin', hdin, hhost', hhost, hresp']
  exact ⟨r, hr.responses, hr.fault, ht' ▸ h'⟩

/-- Settles O28: agreeing states are answered alike, and the answer fixes what becomes of FAULT and DIN. -/
theorem resultsDependOnInputsAlone : Obligations.ResultsDependOnInputsAlone := by
  intro i s s' t ⟨hsched, hlen, hfault, hdin⟩ h
  obtain ⟨r, t', h', ⟨hsched', hlen'⟩, hr, hr'⟩ := exec_sameAnswer ⟨hsched, hlen⟩ hdin (fun _ => hfault) h
  have hfault' : t'.fault = t.fault := by rw [hr'.fault, hr.fault, hfault]
  have hdin' : t'.din = t.din := by rw [hr'.hostSide.1, hr.hostSide.1, hdin]
  exact ⟨r, t', h', ⟨hsched', hlen', hfault', hdin'⟩, hr.responses, hr'.responses⟩

/-! What stays of the schedule -/

/-- Settles O29: only a successful LDKEY starts a schedule; every other command leaves the schedule or appends to it. -/
theorem validSlotsNeverChange : Obligations.ValidSlotsNeverChange := by
  intro i s t hi h
  cases exec_effect h with
  | faults c ht => exact ht ▸ ⟨Nat.le_refl _, fun _ _ => rfl⟩
  | answers r hr ht => exact ht ▸ ⟨Nat.le_refl _, fun _ _ => rfl⟩
  | loads n hn hle ht => exact absurd hn (hi n hle)
  | inverts cur last count u hc hu hl ht =>
    obtain ⟨hlen, hread, -⟩ := invertTimes_frame hu
    exact ht ▸ ⟨by simp only [respond_len]; omega, hread⟩

/-- An append writes slot LEN alone. -/
theorem appendSlot_sched_of_ne {rk : RoundKey} {s t : State} (h : appendSlot rk s = some t) (k : Fin 11)
    (hk : s.len.val ≠ k.val) : t.sched[k.val] = s.sched[k.val] := by
  obtain ⟨hl, rfl⟩ := appendSlot_spec h
  exact Vector.getElem_set_ne hl k.isLt hk

/-- The inversion loop writes the slots from the old LEN up to the new one alone. -/
theorem invertTimes_sched_outside : ∀ {count : Nat} {s t : State}, invertTimes count s = some t →
    ∀ k : Fin 11, k.val < s.len.val ∨ t.len.val ≤ k.val → t.sched[k.val] = s.sched[k.val]
  | 0, s, t, h, k, _ => by
    cases h
    rfl
  | count + 1, s, t, h, k, hk => by
    simp only [invertTimes, Option.bind_eq_some_iff] at h
    obtain ⟨u, hu, ht⟩ := h
    obtain ⟨cur, nk, -, -, ha⟩ := appendPredecessor_spec hu
    have hlen := appendSlot_len ha
    obtain ⟨hlen', -⟩ := invertTimes_frame ht
    rw [invertTimes_sched_outside ht k (by omega), appendSlot_sched_of_ne ha k (by omega)]

/-- Settles O50: the two commands fault, answer with no step taken, or run the inversion loop, which writes between the old and
the new LEN. -/
theorem inversionCommandsFrame : Obligations.InversionCommandsFrame := by
  intro i s t hi h
  obtain ⟨r, hr⟩ := exec_answered h
  have hload : ∀ n, n ≤ 10 → i ≠ .ldkey n := by rcases hi with rfl | rfl <;> simp
  refine ⟨(validSlotsNeverChange i s t hload h).1, ?_, hr.hostSide, r, hr.responses, hr.fault⟩
  cases exec_effect h with
  | faults c ht => exact ht ▸ fun _ _ => rfl
  | answers r hr ht => exact ht ▸ fun _ _ => rfl
  | loads n hn hle ht => exact absurd hn (hload n hle)
  | inverts cur last count u hc hu hl ht => exact ht ▸ invertTimes_sched_outside (t := u) hu

/-! Reset -/

/-- Settles O18: every slot is absent, and no slot is below LEN = 0. -/
theorem resetValues : Obligations.ResetValues :=
  ⟨rfl, rfl, fun k => Vector.getElem_replicate k.isLt, fun k => readSlot_of_le (Nat.zero_le k)⟩

/-- Settles O53: the step performs the reset, which gives the reset state with the later actions. -/
theorem resetClearsState : Obligations.ResetClearsState := by
  intro s rest h
  rw [step_of_cons h]
  rfl

/-! A placed command word -/

/-- A word whose operand field is the operand decodes to the command, checked at each of the field's 16 values. -/
theorem decode_encode_of_operand {f : Nat → Instr} (h : ∀ n : Fin 16, decode (encode (f n.val)) = .command (f n.val))
    {n : Nat} (hn : n ≤ 15) : decode (encode (f n)) = .command (f n) :=
  h ⟨n, by omega⟩

/-- The word of a well-formed command decodes to the command (R50, R52). -/
theorem decode_encode : ∀ {i : Instr}, i.WellFormed → decode (encode i) = .command i
  | .ldkey _, h => decode_encode_of_operand (f := .ldkey) (by decide) h
  | .invrk, _ => by decide
  | .invall, _ => by decide
  | .rdsch _, h => decode_encode_of_operand (f := .rdsch) (by decide) h
  | .rdlast, _ => by decide
  | .stat, _ => by decide
  | .rotw, _ => by decide
  | .subw, _ => by decide
  | .addrc _, h => decode_encode_of_operand (f := .addrc) (by decide) h
  | .gword _, h => decode_encode_of_operand (f := .gword) (by decide) h

/-- A command word placed through its number is the host's next action, with DIN zero (log entry 3). -/
theorem withFetchWord_host (s : State) (cmd : BitVec 8) :
    (s.withFetchWord 8 cmd.toNat).host = .command cmd Key.zero :: s.host := by
  simp [State.withFetchWord, Nat.mod_eq_of_lt cmd.isLt]

/-- Settles O55: the placed word is the next transaction's, and it decodes to the command. -/
theorem placedWordRunsNext : Obligations.PlacedWordRunsNext := by
  intro s i hi
  rw [step_of_command (withFetchWord_host s (encode i)), transaction_of_command (decode_encode hi)]
  rfl

end Sys2Proof.Machine
end

section
/-!
SUPPORT. The tables and the data ports (20_memory.md): the S-box address, the byte positions at the 128-bit ports, and what the
commands that only read leave in place (O6, O17, O49).
-/
namespace Sys2Proof.Machine

/-! The S-box address -/

/-- The row of a byte is its number divided by 16 (R31). -/
theorem sboxRow_eq_div (b : Byte) : sboxRow b = b.toNat / 16 := by
  have hb := b.isLt
  rw [sboxRow, BitVec.extractLsb'_toNat, Nat.shiftRight_eq_div_pow]
  omega

/-- The column of a byte is its number modulo 16 (R31). -/
theorem sboxColumn_eq_mod (b : Byte) : sboxColumn b = b.toNat % 16 := by
  rw [sboxColumn, BitVec.extractLsb'_toNat, Nat.shiftRight_zero]

/-- Row and column address the entry numbered by the byte (R31). -/
theorem sbox_address_eq_toNat (b : Byte) : sboxRow b * 16 + sboxColumn b = b.toNat := by
  rw [sboxRow_eq_div, sboxColumn_eq_mod, Nat.div_add_mod']

/-- Settles O6: the address that `sbox` reads is the byte's own number. -/
theorem sboxIndexedByByteValue : Obligations.SboxIndexedByByteValue := by
  intro b
  refine ⟨?_, Nat.div_add_mod' b.toNat 16⟩
  rw [← sbox_address_eq_toNat b]
  exact List.getElem?_eq_getElem (sbox_address_lt b)

/-! Bytes at the data ports -/

/-- Byte b of word j of the key on a port is byte 4*j + b of the port value (R12, R39). -/
theorem keyOfPort_word_byte (v : BitVec 128) :
    ∀ j b : Fin 4, ((keyOfPort v).word j).byte b = portByte v ⟨4 * j.val + b.val, by omega⟩
  | 0, 0 | 0, 1 | 0, 2 | 0, 3 => rfl
  | 1, 0 | 1, 1 | 1, 2 | 1, 3 => rfl
  | 2, 0 | 2, 1 | 2, 2 | 2, 3 => rfl
  | 3, 0 | 3, 1 | 3, 2 | 3, 3 => rfl

/-- Byte i of the key on a port is byte i of the port value (R39). -/
theorem keyOfPort_byte (v : BitVec 128) (i : Fin 16) : (keyOfPort v).byte i = portByte v i := by
  simp only [Key.byte, keyOfPort_word_byte, Nat.div_add_mod]

/-- Four neighbouring fields of `n` bits, put together, are the field of all their bits. -/
theorem append_four_extractLsb' {w : Nat} (v : BitVec w) (k n : Nat) :
    v.extractLsb' (k + n + n + n) n ++ v.extractLsb' (k + n + n) n ++ v.extractLsb' (k + n) n ++ v.extractLsb' k n =
      v.extractLsb' k (n + n + n + n) := by
  iterate 3 rw [BitVec.extractLsb'_append_extractLsb'_eq_extractLsb' rfl]

/-- Word 0 of the key on a port is port bits [127:96] (R39). -/
theorem portOfWord_keyOfPort_w0 (v : BitVec 128) : portOfWord (keyOfPort v).w0 = v.extractLsb' 96 32 :=
  append_four_extractLsb' v 96 8

/-- The port value is that of the key read from it: its four words are the four 32-bit fields. -/
theorem portOfKey_keyOfPort (v : BitVec 128) : portOfKey (keyOfPort v) = v := by
  have h1 : portOfWord (keyOfPort v).w1 = v.extractLsb' 64 32 := append_four_extractLsb' v 64 8
  have h2 : portOfWord (keyOfPort v).w2 = v.extractLsb' 32 32 := append_four_extractLsb' v 32 8
  have h3 : portOfWord (keyOfPort v).w3 = v.extractLsb' 0 32 := append_four_extractLsb' v 0 8
  rw [portOfKey, portOfWord_keyOfPort_w0, h1, h2, h3]
  exact (append_four_extractLsb' v 0 32).trans BitVec.extractLsb'_eq_self

/-- Bit vectors put together determine their parts. -/
theorem bitVec_append_inj {m n : Nat} {a a' : BitVec m} {b b' : BitVec n} (h : a ++ b = a' ++ b') : a = a' ∧ b = b' := by
  have hhigh := congrArg (BitVec.extractLsb' n m) h
  have hlow := congrArg (BitVec.extractLsb' 0 n) h
  rw [BitVec.extractLsb'_append_eq_left, BitVec.extractLsb'_append_eq_left] at hhigh
  rw [BitVec.extractLsb'_append_eq_right, BitVec.extractLsb'_append_eq_right] at hlow
  exact ⟨hhigh, hlow⟩

/-- Four bit vectors put together determine the four. -/
theorem bitVec_append_four_inj {n : Nat} {a b c d a' b' c' d' : BitVec n}
    (h : a ++ b ++ c ++ d = a' ++ b' ++ c' ++ d') : a = a' ∧ b = b' ∧ c = c' ∧ d = d' := by
  obtain ⟨habc, hd⟩ := bitVec_append_inj h
  obtain ⟨hab, hc⟩ := bitVec_append_inj habc
  obtain ⟨ha, hb⟩ := bitVec_append_inj hab
  exact ⟨ha, hb, hc, hd⟩

/-- Different words have different port values. -/
theorem portOfWord_inj {v w : Word} (h : portOfWord v = portOfWord w) : v = w := by
  obtain ⟨h0, h1, h2, h3⟩ := bitVec_append_four_inj h
  exact Word.ext h0 h1 h2 h3

/-- Different keys have different port values. -/
theorem portOfKey_inj {j k : Key} (h : portOfKey j = portOfKey k) : j = k := by
  obtain ⟨h0, h1, h2, h3⟩ := bitVec_append_four_inj h
  exact Key.ext (portOfWord_inj h0) (portOfWord_inj h1) (portOfWord_inj h2) (portOfWord_inj h3)

/-- The key read from a key's port value is the key, since it has the same port value. -/
theorem keyOfPort_portOfKey (k : Key) : keyOfPort (portOfKey k) = k :=
  portOfKey_inj (portOfKey_keyOfPort (portOfKey k))

/-- Three blocks of zeros at the low end are one block, as numbers: the two widths are not the same expression. -/
theorem toNat_append_three_zeros {m : Nat} (x : BitVec m) (n : Nat) :
    (x ++ 0#n ++ 0#n ++ 0#n).toNat = (x ++ 0#(n + n + n)).toNat := by
  simp [BitVec.toNat_append, Nat.shiftLeft_add]

/-- A word result stands at port bits [127:96], above zeros (R39, R55). -/
theorem portOfKey_wordResult (w : Word) : portOfKey (wordResult w) = portOfWord w ++ 0#96 := by
  have hzero : portOfWord Word.zero = 0#32 := rfl
  apply BitVec.eq_of_toNat_eq
  simp only [portOfKey, wordResult, hzero]
  exact toNat_append_three_zeros (portOfWord w) 32

/-- Settles O17: the fields of the port value are the key's bytes, and the fields together are the port value. -/
theorem portBytePositions : Obligations.PortBytePositions :=
  ⟨keyOfPort_byte, portOfKey_keyOfPort, keyOfPort_portOfKey, portOfWord_keyOfPort_w0, portOfKey_wordResult⟩

/-! Commands that leave the schedule -/

/-- A command leaves the schedule unless it is LDKEY, INVRK or INVALL (R37). -/
theorem exec_sameSchedule {i : Instr} {s t : State} (h : exec i s = .next t) :
    SameSchedule s t ∨ (∃ n, i = .ldkey n) ∨ i = .invrk ∨ i = .invall := by
  cases i with
  | ldkey n => exact .inr (.inl ⟨n, rfl⟩)
  | invrk => exact .inr (.inr (.inl rfl))
  | invall => exact .inr (.inr (.inr rfl))
  | rdsch n => rcases execRdsch_cases h with ⟨-, rfl⟩ | ⟨rk, -, rfl⟩ <;> exact .inl ⟨rfl, rfl⟩
  | rdlast => rcases execRdlast_cases h with ⟨-, rfl⟩ | ⟨rk, -, rfl⟩ <;> exact .inl ⟨rfl, rfl⟩
  | stat => rcases execStat_cases h with ⟨-, rfl⟩ | ⟨cur, -, rfl⟩ <;> exact .inl ⟨rfl, rfl⟩
  | rotw =>
    cases h
    exact .inl ⟨rfl, rfl⟩
  | subw =>
    cases h
    exact .inl ⟨rfl, rfl⟩
  | addrc n => rcases execAddrc_cases h with ⟨hn, rfl⟩ | ⟨-, rfl⟩ <;> exact .inl ⟨rfl, rfl⟩
  | gword n => rcases execGword_cases h with ⟨hn, rfl⟩ | ⟨-, rfl⟩ <;> exact .inl ⟨rfl, rfl⟩

/-- Settles O49: the seven commands are none of the three that write the schedule, and like every command they answer once. -/
theorem readAndWordCommandsFrame : Obligations.ReadAndWordCommandsFrame := by
  intro i s t hi h
  have hschedule : SameSchedule s t := by
    rcases exec_sameSchedule h with hschedule | ⟨n, rfl⟩ | rfl | rfl
    · exact hschedule
    · simp at hi
    · simp at hi
    · simp at hi
  obtain ⟨r, hr⟩ := exec_answered h
  exact ⟨hschedule, hr.hostSide, readSlot_congr s t hschedule.1 hschedule.2, r, hr.responses, hr.fault⟩

end Sys2Proof.Machine
end

section
/-!
SUPPORT. A command word is its two fields and a command is an opcode with an operand (30_encoding.md R50, R52): decoding and
encoding undo each other, and the assembler's words are the encoder's (O1, O2, O3, O5).
-/
namespace Sys2Proof

/-! The fields of a command word -/

/-- The operand field has 4 bits (R50). -/
theorem operandField_fits (cmd : BitVec 8) : OperandFits (operandField cmd) :=
  Nat.le_of_lt_succ (cmd.extractLsb' 0 4).isLt

/-- A command word is put together from its own two fields (R50). -/
theorem commandWord_fields (cmd : BitVec 8) :
    commandWord (BitVec.ofNat 4 (opcodeField cmd)) (operandField cmd) = cmd := by
  simp only [commandWord, opcodeField, operandField, BitVec.ofNat_toNat, BitVec.setWidth_eq]
  exact (BitVec.extractLsb'_append_extractLsb'_eq_extractLsb' rfl).trans BitVec.extractLsb'_eq_self

/-- Opcode and operand stand in a command word as the two digits of a number to base 16 (R50). -/
theorem commandWord_eq_add (opc : BitVec 4) (n : Fin 16) :
    commandWord opc n.val = BitVec.ofNat 8 (opc.toNat * 16) + BitVec.ofNat 8 n.val := by
  have hn : (BitVec.ofNat 4 n.val).toNat = n.val := Nat.mod_eq_of_lt n.isLt
  have happend : (commandWord opc n.val).toNat = opc.toNat * 16 + n.val := by
    rw [commandWord, BitVec.toNat_append, hn, ← Nat.shiftLeft_add_eq_or_of_lt n.isLt, Nat.shiftLeft_eq]
  apply BitVec.eq_of_toNat_eq
  rw [happend, ← BitVec.ofNat_add, BitVec.toNat_ofNat]
  omega

/-! The fields of a command -/

/-- The opcode of a command, the first column of R52's table. -/
def Instr.opcode : Instr → BitVec 4
  | .ldkey _ => 0x1
  | .invrk => 0x2
  | .invall => 0x3
  | .rdsch _ => 0x4
  | .rdlast => 0x5
  | .stat => 0x6
  | .rotw => 0x8
  | .subw => 0x9
  | .addrc _ => 0xA
  | .gword _ => 0xB

/-- The operand of a command, 0 for a command that takes none (R52, R57). -/
def Instr.operand : Instr → Nat
  | .ldkey n | .rdsch n | .addrc n | .gword n => n
  | .invrk | .invall | .rdlast | .stat | .rotw | .subw => 0

/-- A command's word holds its opcode and its operand (R52). -/
theorem encode_eq_commandWord (i : Instr) : encode i = commandWord i.opcode i.operand := by
  cases i <;> rfl

/-- A command is well-formed when its operand fits the field. -/
theorem wellFormed_iff_operandFits (i : Instr) : i.WellFormed ↔ OperandFits i.operand := by
  cases i <;> simp [Instr.WellFormed, Instr.operand]

/-- A must-be-zero command is selected by the operand 0 alone (R57). -/
theorem mustBeZero_eq_command {n : Nat} {i j : Instr} : mustBeZero n i = .command j ↔ n = 0 ∧ i = j := by
  by_cases hn : n = 0 <;> simp [mustBeZero, hn]

/-- A word that decodes has the opcode and the operand of its command in its fields (R52, R57). -/
theorem fields_of_decode {cmd : BitVec 8} {i : Instr} (h : decode cmd = .command i) :
    opcodeField cmd = i.opcode.toNat ∧ operandField cmd = i.operand := by
  have hzero : ∀ {j : Instr}, mustBeZero (operandField cmd) j = .command i → j.operand = 0 →
      opcodeField cmd = j.opcode.toNat → opcodeField cmd = i.opcode.toNat ∧ operandField cmd = i.operand := by
    intro j hm hj hopc
    obtain ⟨hn, rfl⟩ := mustBeZero_eq_command.mp hm
    exact ⟨hopc, hn.trans hj.symm⟩
  unfold decode at h
  split at h
  · next hopc => cases h; exact ⟨hopc, rfl⟩
  · next hopc => exact hzero h rfl hopc
  · next hopc => exact hzero h rfl hopc
  · next hopc => cases h; exact ⟨hopc, rfl⟩
  · next hopc => exact hzero h rfl hopc
  · next hopc => exact hzero h rfl hopc
  · next hopc => exact hzero h rfl hopc
  · next hopc => exact hzero h rfl hopc
  · next hopc => cases h; exact ⟨hopc, rfl⟩
  · next hopc => cases h; exact ⟨hopc, rfl⟩
  · cases h

/-- A word that decodes is the word of its command (R52). -/
theorem encode_of_decode {cmd : BitVec 8} {i : Instr} (h : decode cmd = .command i) : encode i = cmd := by
  obtain ⟨hopc, hn⟩ := fields_of_decode h
  calc encode i
      = commandWord i.opcode i.operand := encode_eq_commandWord i
    _ = commandWord (BitVec.ofNat 4 (opcodeField cmd)) (operandField cmd) := by
        rw [hopc, hn, BitVec.ofNat_toNat, BitVec.setWidth_eq]
    _ = cmd := commandWord_fields cmd

/-- Only well-formed commands are decoded: the operand comes from a 4-bit field (R53). -/
theorem wellFormed_of_decode {cmd : BitVec 8} {i : Instr} (h : decode cmd = .command i) : i.WellFormed := by
  rw [wellFormed_iff_operandFits, ← (fields_of_decode h).2]
  exact operandField_fits cmd

end Sys2Proof

namespace Sys2Proof.Machine

/-! The round trips -/

/-- Settles O2: each word with a free operand field decodes at all of its 16 values, and the six others decode. -/
theorem decodeEncodeRoundTrip : Obligations.DecodeEncodeRoundTrip :=
  fun _ hi => decode_encode hi

/-- Settles O3: the word's fields are its command's opcode and operand, and a word is determined by its fields. -/
theorem encodeDecodeRoundTrip : Obligations.EncodeDecodeRoundTrip :=
  fun _ _ h => ⟨wellFormed_of_decode h, encode_of_decode h⟩

/-- Settles O1: the eleven words are the encodings of their commands; the five others select none. -/
theorem sampleWordsDecode : Obligations.SampleWordsDecode := by
  have hcommand : ∀ i : Instr, i.wellFormed = true → decode (encode i) = .command i :=
    fun i hi => decode_encode (i.wellFormed_iff.mp hi)
  have hreserved : decode 0b00000000 = .illegal .reservedOpcode ∧ decode 0b01110000 = .illegal .reservedOpcode ∧
      decode 0b11000000 = .illegal .reservedOpcode ∧ decode 0b00100001 = .illegal .nonzeroOperand ∧
      decode 0b10000001 = .illegal .nonzeroOperand := by decide
  exact ⟨hcommand (.ldkey 10) rfl, hcommand (.ldkey 15) rfl, hcommand .invrk rfl, hcommand .invall rfl,
    hcommand (.rdsch 11) rfl, hcommand .rdlast rfl, hcommand .stat rfl, hcommand .rotw rfl, hcommand .subw rfl,
    hcommand (.addrc 10) rfl, hcommand (.gword 1) rfl, hreserved⟩

/-! The assembler -/

/-- A line whose word is a command's is sent as that command, with the line's data operand (R61). -/
theorem assemble_of_word {l : AsmLine} {i : Instr} (h : asmWord l = encode i) :
    assemble l = .command (encode i) (asmDin l) := by
  rw [assemble, h]

/-- Settles O5: the assembler adds the operand to the opcode's word, which puts it into the operand field. -/
theorem assembledLinesDecode : Obligations.AssembledLinesDecode :=
  ⟨fun r _ => assemble_of_word (i := .ldkey r.val) (commandWord_eq_add 0x1 r).symm,
    assemble_of_word (i := .invrk) rfl,
    assemble_of_word (i := .invall) rfl,
    fun k => assemble_of_word (i := .rdsch k.val) (commandWord_eq_add 0x4 k).symm,
    assemble_of_word (i := .rdlast) rfl,
    assemble_of_word (i := .stat) rfl,
    fun _ => assemble_of_word (i := .rotw) rfl,
    fun _ => assemble_of_word (i := .subw) rfl,
    fun r _ => assemble_of_word (i := .addrc r.val) (commandWord_eq_add 0xA r).symm,
    fun r _ => assemble_of_word (i := .gword r.val) (commandWord_eq_add 0xB r).symm,
    fun _ _ => rfl⟩

end Sys2Proof.Machine
end

section
/-!
SUPPORT. The word primitives and the four word commands (40_word_primitives.md), and the inverse and the forward step on keys
(41_key_inversion.md section 1): O10 to O13, O15, O45 to O48.
-/
namespace Sys2Proof.Machine

/-! The S-box as a bijection -/

/-- The bytes of a list as the bits of a number: bit k is set when byte k occurs. -/
def byteMask : List Byte → Nat
  | [] => 0
  | b :: bs => 2 ^ b.toNat ||| byteMask bs

/-- Bit k of the mask says whether byte k occurs. -/
theorem testBit_byteMask (bs : List Byte) (c : Byte) : (byteMask bs).testBit c.toNat = decide (c ∈ bs) := by
  induction bs with
  | nil => simp [byteMask]
  | cons b bs ih => simp [byteMask, ih, Nat.testBit_two_pow, BitVec.toNat_inj, eq_comm]

theorem byteMask_append (as bs : List Byte) : byteMask (as ++ bs) = byteMask as ||| byteMask bs := by
  induction as with
  | nil => simp [byteMask]
  | cons a as ih => simp [byteMask, ih, Nat.or_assoc]

/-- The sixteen rows of the table together hold all 256 bytes. The mask makes this one union of bits, where a search of
the table for each byte would be many times the work. -/
theorem byteMask_sboxTable : byteMask sboxTable = 2 ^ 256 - 1 := by
  simp only [sboxTable, byteMask_append]
  rfl

/-- Every byte stands in the table (R33). -/
theorem mem_sboxTable (c : Byte) : c ∈ sboxTable := by
  have hbit := testBit_byteMask sboxTable c
  rw [byteMask_sboxTable, Nat.testBit_two_pow_sub_one] at hbit
  simpa [c.isLt] using hbit

/-- Every byte is an S-box entry: the place where it stands is the input byte (R31, R33). -/
theorem sbox_surjective : Function.Surjective sbox := by
  intro c
  obtain ⟨k, hk, hc⟩ := List.getElem_of_mem (mem_sboxTable c)
  have hplace : (BitVec.ofNat 8 k).toNat = k := Nat.mod_eq_of_lt (Nat.lt_of_lt_of_eq hk sboxTable_length)
  have hentry := (sboxIndexedByByteValue (BitVec.ofNat 8 k)).1
  rw [hplace, List.getElem?_eq_getElem hk, hc] at hentry
  exact ⟨BitVec.ofNat 8 k, (Option.some.inj hentry).symm⟩

/-- A list that holds every byte has at least 256 places. -/
theorem length_ge_of_forall_mem {bs : List Byte} (h : ∀ c, c ∈ bs) : 256 ≤ bs.length := by
  have hsub : List.finRange 256 ⊆ bs.map BitVec.toFin := fun k _ => List.mem_map.mpr ⟨BitVec.ofFin k, h _, rfl⟩
  simpa only [List.length_finRange, List.length_map] using (List.nodup_finRange 256).length_le_of_subset hsub

/-- The entry of a byte stays when the place of another byte is taken out of the table (R31). -/
theorem sbox_mem_eraseIdx {a b : Byte} (h : a ≠ b) : sbox a ∈ sboxTable.eraseIdx b.toNat :=
  List.mem_eraseIdx_iff_getElem?.mpr ⟨a.toNat, BitVec.toNat_ne.mp h, (sboxIndexedByByteValue a).1⟩

/-- Different bytes have different S-box entries: with one entry at two places, the table without one of the two would still
hold all 256 bytes, at 255 places (R33). -/
theorem sbox_injective : Function.Injective sbox := by
  intro a b hab
  apply Decidable.byContradiction
  intro hne
  have hall : ∀ c, c ∈ sboxTable.eraseIdx b.toNat := by
    intro c
    obtain ⟨d, rfl⟩ := sbox_surjective c
    by_cases hd : d = b
    · rw [hd, ← hab]
      exact sbox_mem_eraseIdx hne
    · exact sbox_mem_eraseIdx hd
  have hplaces := length_ge_of_forall_mem hall
  rw [List.length_eraseIdx_of_lt (Nat.lt_of_lt_of_eq b.isLt sboxTable_length.symm), sboxTable_length] at hplaces
  omega

/-! Rotation, substitution, round constant -/

/-- Settles O10: a word has four bytes, so four rotations bring each back to its place. -/
theorem rotWordMovesBytes : Obligations.RotWordMovesBytes :=
  fun _ => ⟨rfl, rfl⟩

/-- SubWord byte by byte (R71). -/
theorem subWord_eq_bytes (w : Word) : subWord w = ⟨sbox w.b0, sbox w.b1, sbox w.b2, sbox w.b3⟩ := rfl

/-- SubWord is injective, since the S-box is at each of the four bytes (R71). -/
theorem subWord_injective : Function.Injective subWord := by
  intro v w h
  obtain ⟨h0, h1, h2, h3⟩ := Word.mk.inj h
  exact Word.ext (sbox_injective h0) (sbox_injective h1) (sbox_injective h2) (sbox_injective h3)

/-- SubWord is surjective, since the S-box is at each of the four bytes (R71). -/
theorem subWord_surjective : Function.Surjective subWord := by
  intro v
  obtain ⟨c0, h0⟩ := sbox_surjective v.b0
  obtain ⟨c1, h1⟩ := sbox_surjective v.b1
  obtain ⟨c2, h2⟩ := sbox_surjective v.b2
  obtain ⟨c3, h3⟩ := sbox_surjective v.b3
  exact ⟨⟨c0, c1, c2, c3⟩, Word.ext h0 h1 h2 h3⟩

/-- Settles O11: substitution is by bytes, and the S-box is a bijection on bytes. -/
theorem subWordBijective : Obligations.SubWordBijective :=
  ⟨subWord_eq_bytes, fun _ _ h => subWord_injective h, subWord_surjective⟩

/-- Adding a round constant twice adds nothing (R72). -/
theorem addRcon_addRcon (w : Word) (r : StepRound) : addRcon (addRcon w r) r = w := by
  simp only [addRcon, BitVec.xor_assoc, BitVec.xor_self, BitVec.xor_zero]

/-- Settles O12: byte 0 alone takes the constant, and an exclusive-or undoes itself. -/
theorem addRconChangesByteZero : Obligations.AddRconChangesByteZero :=
  fun w r => ⟨rfl, addRcon_addRcon w r⟩

/-- The key-expansion function byte by byte (R74). -/
theorem gWord_eq_bytes (w : Word) (r : StepRound) :
    gWord w r = ⟨sbox w.b1 ^^^ rcon r, sbox w.b2, sbox w.b3, sbox w.b0⟩ := rfl

/-- Substitution is the same at each byte, so it commutes with the rotation (R74). -/
theorem subWord_rotWord (w : Word) : subWord (rotWord w) = rotWord (subWord w) := rfl

/-- Settles O13: the order is that of `gWord`'s definition, and its bytes follow. -/
theorem keyExpansionFunctionOrder : Obligations.KeyExpansionFunctionOrder :=
  fun w r => ⟨gWord_eq_bytes w r, rfl, subWord_rotWord w⟩

/-! Inverse and forward step -/

/-- Exclusive-or of words is commutative (R70). -/
theorem xorWord_comm (a b : Word) : xorWord a b = xorWord b a := by
  simp only [xorWord, BitVec.xor_comm]

/-- Adding a word twice adds nothing (R70). -/
@[simp] theorem xorWord_xorWord_cancel_right (a b : Word) : xorWord (xorWord a b) b = a := by
  simp only [xorWord, BitVec.xor_assoc, BitVec.xor_self, BitVec.xor_zero]

@[simp] theorem xorWord_xorWord_cancel_left (a b : Word) : xorWord (xorWord a b) a = b := by
  rw [xorWord_comm a b, xorWord_xorWord_cancel_right]

@[simp] theorem xorWord_cancel_xorWord (a b : Word) : xorWord a (xorWord b a) = b := by
  rw [xorWord_comm, xorWord_xorWord_cancel_right]

/-- The inverse step undoes the forward step: words 1 to 3 come back first, and with word 3 the same value of `g` is added to
word 0 again (R82). -/
theorem invertWith_forwardWith (g : Word → Word) (k : Key) : invertWith g (forwardWith g k) = k := by
  simp only [invertWith, forwardWith, xorWord_cancel_xorWord, xorWord_xorWord_cancel_right]

/-- The forward step undoes the inverse step: both add `g` of the same word, so word 4 comes back, and the later words one by
one (R82). -/
theorem forwardWith_invertWith (g : Word → Word) (k : Key) : forwardWith g (invertWith g k) = k := by
  simp only [invertWith, forwardWith, xorWord_xorWord_cancel_left, xorWord_xorWord_cancel_right]

/-- `InvRoundKey(., r)` undoes `FwdRoundKey(., r)` (R82). -/
theorem invRoundKey_fwdRoundKey (r : StepRound) :
    Function.LeftInverse (invRoundKey · r) (fwdRoundKey · r) :=
  invertWith_forwardWith (gWord · r)

/-- `FwdRoundKey(., r)` undoes `InvRoundKey(., r)` (R82). -/
theorem fwdRoundKey_invRoundKey (r : StepRound) :
    Function.LeftInverse (fwdRoundKey · r) (invRoundKey · r) :=
  forwardWith_invertWith (gWord · r)

/-- One inversion step takes the key of round r + 1 of a forward schedule to that of round r (R81, R82). -/
theorem invRoundKey_forwardSchedule (original : Key) (r : Nat) (h : r + 1 ≤ 10) :
    invRoundKey (forwardSchedule original (r + 1) h) ⟨r + 1, by omega, h⟩ = forwardSchedule original r (by omega) :=
  invRoundKey_fwdRoundKey _ (forwardSchedule original r _)

/-- Settles O15: each step undoes the other, so the inverse step is a bijection and takes back the last step of a schedule. -/
theorem inverseUndoesForwardStep : Obligations.InverseUndoesForwardStep := by
  refine ⟨fun g k => ⟨invertWith_forwardWith g k, forwardWith_invertWith g k⟩,
    fun k r => ⟨invRoundKey_fwdRoundKey r k, fwdRoundKey_invRoundKey r k⟩,
    fun _ _ r h => (fwdRoundKey_invRoundKey r).injective h,
    fun b r => Function.RightInverse.surjective (invRoundKey_fwdRoundKey r) b,
    fun original r h => ?_⟩
  obtain ⟨r, rfl⟩ : ∃ q, r = q + 1 := Nat.exists_eq_add_of_le' h.1
  exact invRoundKey_forwardSchedule original r h.2

/-! The word commands -/

/-- The word operand is DIN bytes 0 to 3 (R55). -/
theorem wordOperand_eq_bytes (s : State) :
    wordOperand s = ⟨s.din.byte 0, s.din.byte 1, s.din.byte 2, s.din.byte 3⟩ := rfl

/-- A word answer is the word and twelve bytes of zero, and changes nothing but the responses (R55). -/
theorem answerWord_eq_afterAnswer (w : Word) (s : State) :
    answerWord w s = afterAnswer (.data ⟨w, ⟨0, 0, 0, 0⟩, ⟨0, 0, 0, 0⟩, ⟨0, 0, 0, 0⟩⟩) s := rfl

theorem exec_rotw (s : State) : exec .rotw s = .next (answerWord (rotWord (wordOperand s)) s) := rfl

theorem exec_subw (s : State) : exec .subw s = .next (answerWord (subWord (wordOperand s)) s) := rfl

theorem exec_addrc_of_range (s : State) {n : Nat} (h : 1 ≤ n ∧ n ≤ 10) :
    exec (.addrc n) s = .next (answerWord (addRcon (wordOperand s) ⟨n, h⟩) s) :=
  dif_pos h

theorem exec_gword_of_range (s : State) {n : Nat} (h : 1 ≤ n ∧ n ≤ 10) :
    exec (.gword n) s = .next (answerWord (gWord (wordOperand s) ⟨n, h⟩) s) :=
  dif_pos h

/-- Settles O45: the answer is the rotation of the word operand. -/
theorem rotwAnswersRotatedWord : Obligations.RotwAnswersRotatedWord := by
  intro s
  rw [exec_rotw, answerWord_eq_afterAnswer, (rotWordMovesBytes _).1, wordOperand_eq_bytes]

/-- Settles O46: the answer is the substitution of the word operand. -/
theorem subwAnswersSubstitutedWord : Obligations.SubwAnswersSubstitutedWord := by
  intro s
  rw [exec_subw, answerWord_eq_afterAnswer, subWord_eq_bytes, wordOperand_eq_bytes]

/-- Settles O47: a round in range passes the check, and the answer is the word operand with the constant added. -/
theorem addrcAddsRoundConstant : Obligations.AddrcAddsRoundConstant := by
  intro s n h
  rw [exec_addrc_of_range s h, answerWord_eq_afterAnswer, (addRconChangesByteZero _ _).1, wordOperand_eq_bytes]

/-- Settles O48: a round in range passes the check, and the answer is the key-expansion function of the word operand. -/
theorem gwordAnswersKeyExpansion : Obligations.GwordAnswersKeyExpansion := by
  intro s n h
  rw [exec_gword_of_range s h, answerWord_eq_afterAnswer, gWord_eq_bytes, wordOperand_eq_bytes]

end Sys2Proof.Machine
end

section
/-!
SUPPORT. Key inversion (41_key_inversion.md): one inversion step as words and as round keys, the descent of the schedule, and what
LDKEY, INVRK and INVALL complete (O14, O16, O21, O37 to O41, O51).
-/
namespace Sys2Proof.Machine

/-! One inversion step -/

/-- Words 1 to 3 of the inverted key are sums of neighbouring words; word 0 takes the key-expansion function of word 3 (R80). -/
theorem invRoundKey_eq_words (w4 w5 w6 w7 : Word) (r : StepRound) :
    invRoundKey ⟨w4, w5, w6, w7⟩ r =
      ⟨xorWord w4 (gWord (xorWord w6 w7) r), xorWord w4 w5, xorWord w5 w6, xorWord w6 w7⟩ := rfl

/-- Settles O14: the five steps are `invRoundKey`'s definition, and the round of a key decides whether it has a predecessor. -/
theorem inversionStepWords : Obligations.InversionStepWords :=
  fun _ _ _ _ r => ⟨invRoundKey_eq_words .., predecessor_of_pos r.property.1, predecessor_of_zero rfl⟩

/-- Exchanging one round constant for another in the key-expansion function changes byte 0 by both (R74). -/
theorem gWord_other_round (w : Word) (r q : StepRound) :
    gWord w q = ⟨(gWord w r).b0 ^^^ rcon r ^^^ rcon q, (gWord w r).b1, (gWord w r).b2, (gWord w r).b3⟩ := by
  simp only [gWord_eq_bytes, BitVec.xor_assoc, BitVec.xor_self, BitVec.xor_zero]

/-- Settles O16: the round index enters by the key-expansion function in word 0 alone. -/
theorem wrongTagChangesByteZero : Obligations.WrongTagChangesByteZero := by
  rintro ⟨w4, w5, w6, w7⟩ r q
  refine ⟨rfl, rfl, rfl, ?_⟩
  rw [invRoundKey_eq_words, invRoundKey_eq_words, gWord_other_round _ r q]
  simp only [xorWord, BitVec.xor_assoc]

/-! Loading a key -/

/-- `LDKEY n` with a round in range starts a schedule with the data operand (R83). -/
theorem exec_ldkey_of_le (s : State) {n : Nat} (h : n ≤ 10) :
    exec (.ldkey n) s = .next (respond (.bare .ok) (startSchedule ⟨⟨n, by omega⟩, s.din⟩ s)) :=
  dif_pos h

/-- Settles O37: a round in range passes the check, and the new schedule is one key before ten absent slots. -/
theorem ldkeyStartsSchedule : Obligations.LdkeyStartsSchedule := by
  intro s n h
  rw [exec_ldkey_of_le s h]
  rfl

/-- Settles O51: LDKEY answers once like every command, and it starts a schedule or faults as its operand says. -/
theorem ldkeyFrame : Obligations.LdkeyFrame := by
  intro n s t h
  obtain ⟨r, hr⟩ := exec_answered h
  rcases execLdkey_cases h with ⟨hn, rfl⟩ | ⟨hn, rfl⟩
  · exact ⟨hr.hostSide, fun hgt => by omega, fun _ => rfl, r, hr.responses⟩
  · exact ⟨hr.hostSide, fun _ => ⟨⟨rfl, rfl⟩, rfl⟩, fun hle => by omega, r, hr.responses⟩

/-! The descent of the schedule -/

/-- Under the schedule invariant a valid slot after the first is the predecessor of the slot before it (R16). -/
theorem readSlot_succ {s : State} (hs : ScheduleInv s) {k : Nat} (hk : k + 1 < s.len.val) :
    readSlot s (k + 1) = (readSlot s k).bind predecessor := by
  rw [readSlot_of_lt hk, readSlot_of_lt (by omega)]
  exact hs.2 ⟨k, by omega⟩ hk

/-- A round key with a predecessor has a round of at least 1, and the predecessor is the inverted key (R80). -/
theorem predecessor_eq_some {rk nk : RoundKey} (h : predecessor rk = some nk) :
    ∃ hr : 1 ≤ rk.round.val,
      nk = ⟨⟨rk.round.val - 1, by omega⟩, invRoundKey rk.key ⟨rk.round.val, hr, by omega⟩⟩ := by
  have hr : 1 ≤ rk.round.val := by
    have := predecessor_round h
    omega
  rw [predecessor_of_pos hr] at h
  exact ⟨hr, (Option.some.inj h).symm⟩

/-- Settles O21: reachable states meet the schedule invariant, by which neighbouring slots are a key and its predecessor. -/
theorem reachableSchedulesDescend : Obligations.ReachableSchedulesDescend := by
  intro s hs k hpos hk
  obtain ⟨hinv, -⟩ := reachableStatesMeetInvariant s hs
  obtain ⟨j, rfl⟩ : ∃ j, k = j + 1 := Nat.exists_eq_add_of_le' hpos
  obtain ⟨first, hfirst⟩ := readSlot_isSome hinv.1 (k := 0) (by omega)
  obtain ⟨before, hbefore⟩ := readSlot_isSome hinv.1 (k := j) (by omega)
  obtain ⟨here, hhere⟩ := readSlot_isSome hinv.1 hk
  obtain ⟨cur, hcur⟩ := currentKey_isSome hinv.1 (by omega)
  have hpred : predecessor before = some here := by
    rw [← hhere, readSlot_succ hinv hk, hbefore, Option.bind_some]
  obtain ⟨hr, rfl⟩ := predecessor_eq_some hpred
  exact ⟨first, before, _, hr, hfirst, hbefore, hhere, rfl, rfl, round_add_position hinv hfirst _ _ hhere, cur, hcur,
    round_add_position hinv hfirst _ _ hcur⟩

/-! INVRK and INVALL completing -/

/-- INVRK answers the predecessor of the current key once that is appended (R84). -/
theorem exec_invrk_of_appendSlot {s u : State} {cur nk : RoundKey} (hc : currentKey s = some cur)
    (hp : predecessor cur = some nk) (ha : appendSlot nk s = some u) :
    exec .invrk s = .next (respond (.tagged nk.round nk.key) u) := by
  have hlen : s.len.val ≠ 0 := Nat.ne_of_gt (len_pos_of_currentKey hc)
  simp only [exec, execInvrk, hlen, hc, hp, ha, if_false]

/-- Settles O38: the round counts leave a free slot, so the predecessor is appended and answered. -/
theorem invrkAppendsPredecessor : Obligations.InvrkAppendsPredecessor := by
  intro s cur hs hc hr
  have hroom := len_add_round_le hs hc
  have hl : s.len.val < 11 := by omega
  exact ⟨hl, exec_invrk_of_appendSlot hc (predecessor_of_pos hr) (appendSlot_of_lt _ hl)⟩

/-- INVALL answers the last key once the inversion loop has run (R85). -/
theorem exec_invall_of_invertTimes {s u : State} {cur last : RoundKey} (hc : currentKey s = some cur)
    (hu : invertTimes cur.round.val s = some u) (hl : currentKey u = some last) :
    exec .invall s = .next (respond (.tagged last.round last.key) u) := by
  have hlen : s.len.val ≠ 0 := Nat.ne_of_gt (len_pos_of_currentKey hc)
  simp only [exec, execInvall, hlen, hc, hu, hl, if_false]

/-- In a state that meets the schedule invariant INVALL's loop runs to its end, at a key of round 0, which is answered (R85). -/
theorem exec_invall_completes {s : State} {cur : RoundKey} (hs : ScheduleInv s) (hc : currentKey s = some cur) :
    ∃ (u : State) (last : RoundKey), invertTimes cur.round.val s = some u ∧ ScheduleInv u ∧ currentKey u = some last ∧
      last.round = 0 ∧ exec .invall s = .next (respond (.tagged 0 last.key) u) := by
  obtain ⟨u, hu⟩ := invertTimes_of_le hs hc (Nat.le_refl _)
  obtain ⟨hinv, last, hl, hcount⟩ := invertTimes_keeps hs hc hu
  have hzero : last.round = 0 := Fin.ext (by simpa using hcount)
  exact ⟨u, last, hu, hinv, hl, hzero, hzero ▸ exec_invall_of_invertTimes hc hu hl⟩

/-- Settles O39: the loop runs as often as the current round says, so it ends at round 0 and fills the slots that the first
round leaves room for. -/
theorem invallReachesRoundZero : Obligations.InvallReachesRoundZero := by
  intro s cur first hs hc hfirst
  obtain ⟨u, last, hu, hinv, hl, hzero, hexec⟩ := exec_invall_completes hs hc
  obtain ⟨hlen, hslots, hfault, hdin, hhost, hresp⟩ := invertTimes_frame hu
  have hpos := len_pos_of_currentKey hc
  have hcount := round_add_position hs hfirst _ cur hc
  exact ⟨_, last, hexec, hlen, by simp only [respond_len]; omega, hinv, hslots, hl, hzero,
    by rw [respond_responses, hresp], hfault, hdin, hhost⟩

/-! Recovering the original key -/

/-- The round-r key of an original key, with its tag (R81). -/
def trueRoundKey (original : Key) (r : Nat) (h : r ≤ 10) : RoundKey :=
  ⟨⟨r, by omega⟩, forwardSchedule original r h⟩

/-- The predecessor of a true round key is the true round key before it (R82). -/
theorem predecessor_trueRoundKey (original : Key) (r : Nat) (h : r + 1 ≤ 10) :
    predecessor (trueRoundKey original (r + 1) h) = some (trueRoundKey original r (by omega)) := by
  have hkey := invRoundKey_forwardSchedule original r h
  rw [predecessor_of_pos (Nat.le_add_left 1 r)]
  exact congrArg (fun key => some (RoundKey.mk ⟨r, by omega⟩ key)) hkey

/-- From a slot with a true round key on, the slots hold the true round keys below it, in descending order (R130). -/
theorem readSlot_trueRoundKey {s : State} (hs : ScheduleInv s) (original : Key) (q : Nat) :
    ∀ (d k : Nat) (h : q + d ≤ 10), readSlot s k = some (trueRoundKey original (q + d) h) → k + d < s.len.val →
      readSlot s (k + d) = some (trueRoundKey original q (by omega))
  | 0, _, _, hk, _ => hk
  | d + 1, k, h, hk, hlt => by
    have hnext : readSlot s (k + 1) = some (trueRoundKey original (q + d) (by omega)) := by
      rw [readSlot_succ hs (by omega), hk, Option.bind_some]
      exact predecessor_trueRoundKey original (q + d) h
    rw [← Nat.add_assoc, Nat.add_right_comm]
    exact readSlot_trueRoundKey hs original q d (k + 1) (by omega) hnext (by omega)

/-- Settles O40: the loop leaves the current key in its slot and keeps the chain of predecessors, which from a true round key
are the true round keys, down to the original key in the last slot. -/
theorem invallRecoversOriginalKey : Obligations.InvallRecoversOriginalKey := by
  intro s original r h hs hc
  obtain ⟨u, last, hu, hinv, hl, -, hexec⟩ := exec_invall_completes hs hc
  obtain ⟨hcount, hslots, -, -, -, hresp⟩ := invertTimes_frame hu
  have hlen : u.len.val = s.len.val + r := hcount
  have hpos := len_pos_of_currentKey hc
  have hcur : readSlot u (s.len.val - 1) = some (trueRoundKey original r h) := (hslots _ (by omega)).trans hc
  have hdescent (q : Nat) (hq : q ≤ r) :
      readSlot u (s.len.val - 1 + (r - q)) = some (trueRoundKey original q (by omega)) := by
    obtain ⟨d, rfl⟩ := Nat.exists_eq_add_of_le hq
    rw [Nat.add_sub_cancel_left]
    exact readSlot_trueRoundKey hinv original q d _ h hcur (by omega)
  have hlast : currentKey u = some (trueRoundKey original 0 (by omega)) := by
    rw [← hdescent 0 (Nat.zero_le r), currentKey, hlen]
    congr 1
    omega
  obtain rfl : last = trueRoundKey original 0 (by omega) := Option.some.inj (hl.symm.trans hlast)
  exact ⟨_, hexec, by rw [respond_responses, hresp]; rfl, hdescent⟩

/-! INVALL as repeated INVRK -/

/-- The last response is the tag and key of the current key. -/
def AnswersCurrentKey (s : State) : Prop :=
  ∃ cur, currentKey s = some cur ∧ s.responses.getLast? = some (.tagged cur.round cur.key)

/-- A response with the current key is the last one. -/
theorem answersCurrentKey_respond {s : State} {cur : RoundKey} (h : currentKey s = some cur) :
    AnswersCurrentKey (respond (.tagged cur.round cur.key) s) :=
  ⟨cur, h, by simp⟩

/-- A successful first command leaves the rest of the run. -/
theorem runCommands_cons_of_next {cmd : BitVec 8} {din : Key} {rest : List (BitVec 8 × Key)} {s t : State}
    (h : transaction cmd din s = .next t) : runCommands ((cmd, din) :: rest) s = runCommands rest t := by
  simp only [runCommands, h]

/-- The command word of INVRK, with DIN as it is, appends and answers the predecessor of the current key (R84). -/
theorem transaction_invrk {s v : State} (h : appendPredecessor s = some v) :
    ∃ nk, currentKey v = some nk ∧ transaction 0x20 s.din s = .next (respond (.tagged nk.round nk.key) v) := by
  obtain ⟨cur, nk, hc, hp, ha⟩ := appendPredecessor_spec h
  refine ⟨nk, appendSlot_current ha, ?_⟩
  rw [transaction_of_command (i := .invrk) (by decide)]
  exact exec_invrk_of_appendSlot hc hp ha

/-- A run of INVRK commands makes the schedule that the inversion loop makes, leaves the rest of the state, and answers the
current key last. -/
theorem runCommands_invrk : ∀ {count : Nat} {s u : State}, invertTimes count s = some u →
    ∃ t, runCommands (List.replicate count (0x20, s.din)) s = .next t ∧ SameSchedule u t ∧ SameHostSide s t ∧
      t.fault = s.fault ∧ (1 ≤ count ∨ AnswersCurrentKey s → AnswersCurrentKey t)
  | 0, s, u, h => by
    cases h
    exact ⟨s, rfl, ⟨rfl, rfl⟩, ⟨rfl, rfl⟩, rfl, fun hs => hs.resolve_left (by omega)⟩
  | count + 1, s, u, h => by
    simp only [invertTimes, Option.bind_eq_some_iff] at h
    obtain ⟨v, hv, hu⟩ := h
    obtain ⟨-, -, hfault, hdin, hhost, -⟩ := invertTimes_frame ((invertTimes_one s).trans hv)
    obtain ⟨nk, hnk, htrans⟩ := transaction_invrk hv
    have hloop := invertTimes_congr count v (respond (.tagged nk.round nk.key) v) rfl rfl u hu
    obtain ⟨t, hrun, hsched, ⟨hdin', hhost'⟩, hfault', hlast⟩ := runCommands_invrk hloop
    rw [respond_din, hdin] at hrun
    refine ⟨t, ?_, hsched, ⟨hdin'.trans hdin, hhost'.trans hhost⟩, hfault'.trans hfault, fun _ => ?_⟩
    · rw [List.replicate_succ, runCommands_cons_of_next htrans, hrun]
    · exact hlast (.inr (answersCurrentKey_respond hnk))

/-- Settles O41: both run the inversion loop as often as the current round says, and both answer its last key last. -/
theorem invallEqualsRepeatedInvrk : Obligations.InvallEqualsRepeatedInvrk := by
  intro s cur hs hc
  obtain ⟨u, last, hu, -, hl, hzero, hexec⟩ := exec_invall_completes hs hc
  obtain ⟨-, -, hfault, hdin, hhost, -⟩ := invertTimes_frame hu
  obtain ⟨t, hrun, ⟨hsched, hlen⟩, ⟨hdin', hhost'⟩, hfault', hlast⟩ := runCommands_invrk hu
  refine ⟨_, t, hexec, hrun, ⟨hsched.symm, hlen.symm⟩, ⟨hdin.trans hdin'.symm, hhost.trans hhost'.symm⟩,
    hfault.trans hfault'.symm, fun hcount => ?_⟩
  obtain ⟨cur', hcur', hresp⟩ := hlast (.inl hcount)
  rw [currentKey_congr u t hsched hlen, hl] at hcur'
  cases hcur'
  rw [hresp, hzero]
  simp

end Sys2Proof.Machine
end

section
/-!
SUPPORT. Reading the schedule and the status (42_readout_status.md R90 to R92): what RDSCH, RDLAST and STAT answer when they do
not fault (O42 to O44).
-/
namespace Sys2Proof.Machine

/-- `RDSCH n` below LEN answers the round key of its slot (R90). -/
theorem exec_rdsch_of_readSlot {s : State} {n : Nat} {rk : RoundKey} (hn : n < s.len.val) (h : readSlot s n = some rk) :
    exec (.rdsch n) s = .next (respond (.tagged rk.round rk.key) s) := by
  simp only [exec, execRdsch, Nat.not_le.mpr hn, h, answerSlot, if_false]

/-- `RDLAST` answers as `RDSCH (LEN-1)` does (R15, R91). -/
theorem exec_rdlast_eq_rdsch {s : State} (h : 1 ≤ s.len.val) : exec .rdlast s = exec (.rdsch (s.len.val - 1)) s := by
  have hlen : s.len.val ≠ 0 := Nat.ne_of_gt h
  have hslot : ¬ s.len.val ≤ s.len.val - 1 := by omega
  simp only [exec, execRdlast, execRdsch, hlen, hslot, currentKey, if_false]

/-- `STAT` with an empty schedule answers round 0 (R92). -/
theorem exec_stat_of_len_zero {s : State} (h : s.len.val = 0) :
    exec .stat s = .next (respond (.data (statData s.len 0 s.fault)) s) :=
  if_pos h

/-- `STAT` with a current key answers its round (R92). -/
theorem exec_stat_of_currentKey {s : State} {cur : RoundKey} (h : currentKey s = some cur) :
    exec .stat s = .next (respond (.data (statData s.len cur.round s.fault)) s) := by
  have hlen : s.len.val ≠ 0 := Nat.ne_of_gt (len_pos_of_currentKey h)
  simp only [exec, execStat, hlen, h, if_false]

/-- Settles O42: a slot below LEN is valid under the invariant, and RDSCH answers it. -/
theorem rdschAnswersSlot : Obligations.RdschAnswersSlot := by
  intro s n hn hs
  obtain ⟨rk, hrk⟩ := readSlot_isSome hs.1 hn
  exact ⟨rk, (readSlot_of_lt hn).symm.trans hrk, exec_rdsch_of_readSlot hn hrk⟩

/-- Settles O43: RDLAST is RDSCH of slot LEN-1, which O42 answers. -/
theorem rdlastAnswersCurrentKey : Obligations.RdlastAnswersCurrentKey := by
  intro s hlen hs
  obtain ⟨rk, hslot, hexec⟩ := rdschAnswersSlot s (s.len.val - 1) (by omega) hs
  have hsame := exec_rdlast_eq_rdsch hlen
  exact ⟨rk, hslot, hsame.trans hexec, hsame.symm⟩

/-- Settles O44: an empty schedule reads as LEN 0 and round 0, and any other has a current key, whose round is read. -/
theorem statAnswersStatus : Obligations.StatAnswersStatus := by
  intro s hs
  refine ⟨fun hzero => ?_, fun hpos => ?_⟩
  · rw [exec_stat_of_len_zero hzero, statData, hzero]
    rfl
  · obtain ⟨cur, hcur⟩ := currentKey_isSome hs.1 (Nat.ne_of_gt hpos)
    exact ⟨cur, hcur, exec_stat_of_currentKey hcur⟩

end Sys2Proof.Machine
end

section
/-!
SUPPORT. The five faults (60_exceptions.md): the condition of each, that a command faults exactly when one of them applies, that
under the schedule invariant every command is answered, and how the conditions read off the command word (O24, O25, O31 to O36,
O54).
-/
namespace Sys2Proof.Machine

/-! When a command faults -/

/-- The fault that a command raises in a state (R103 to R106). `ILLEGAL_CMD` is not among them: it is a word's fault, and no
command's. -/
inductive FaultApplies : Instr → State → FaultCode → Prop where
  | roundRange {i : Instr} {s : State} (hbad : BadRound i) : FaultApplies i s .roundRange
  | noKey {i : Instr} {s : State} (hi : i = .invrk ∨ i = .invall ∨ i = .rdlast) (hlen : s.len.val = 0) :
      FaultApplies i s .noKey
  | roundZero {s : State} {cur : RoundKey} (hc : currentKey s = some cur) (hr : cur.round = 0) :
      FaultApplies .invrk s .roundZero
  | index {n : Nat} {s : State} (hn : s.len.val ≤ n) : FaultApplies (.rdsch n) s .index

/-- A round operand out of range faults in every state (R103). -/
theorem exec_of_badRound {i : Instr} (h : BadRound i) (s : State) : exec i s = .next (raiseFault .roundRange s) := by
  cases i with
  | ldkey n => exact dif_neg (Nat.not_le.mpr h)
  | addrc n => exact dif_neg (by simp only [BadRound] at h; omega)
  | gword n => exact dif_neg (by simp only [BadRound] at h; omega)
  | invrk | invall | rdsch _ | rdlast | stat | rotw | subw => exact h.elim

/-- A command whose fault applies raises it (R100). -/
theorem exec_of_faultApplies {i : Instr} {s : State} {c : FaultCode} (h : FaultApplies i s c) :
    exec i s = .next (raiseFault c s) := by
  cases h with
  | roundRange hbad => exact exec_of_badRound hbad s
  | noKey hi hlen => rcases hi with rfl | rfl | rfl <;> exact if_pos hlen
  | roundZero hc hr =>
    have hlen : s.len.val ≠ 0 := Nat.ne_of_gt (len_pos_of_currentKey hc)
    simp only [exec, execInvrk, hlen, hc, predecessor_of_zero (congrArg Fin.val hr), if_false]
  | index hn => exact if_pos hn

/-- A key without a predecessor has round 0 (R80). -/
theorem round_eq_zero_of_predecessor {rk : RoundKey} (h : predecessor rk = none) : rk.round = 0 := by
  refine Fin.ext (Nat.eq_zero_of_not_pos fun hpos => ?_)
  rw [predecessor_of_pos hpos] at h
  cases h

/-- A command that ends in a next state raises a fault that applies, or completes with a response that is no fault (R100). -/
theorem exec_faults_or_completes {i : Instr} {s t : State} (h : exec i s = .next t) :
    (∃ c, FaultApplies i s c ∧ t = raiseFault c s) ∨ ∃ r, r.isFault = false ∧ Answered r s t := by
  cases i with
  | ldkey n =>
    rcases execLdkey_cases h with ⟨hn, rfl⟩ | ⟨hn, rfl⟩
    · exact .inr ⟨_, rfl, rfl, rfl, rfl, rfl⟩
    · exact .inl ⟨_, .roundRange hn, rfl⟩
  | invrk =>
    rcases execInvrk_cases h with ⟨h0, rfl⟩ | ⟨cur, hc, hp, rfl⟩ | ⟨cur, nk, u, -, -, ha, rfl⟩
    · exact .inl ⟨_, .noKey (.inl rfl) h0, rfl⟩
    · exact .inl ⟨_, .roundZero hc (round_eq_zero_of_predecessor hp), rfl⟩
    · obtain ⟨hfault, hdin, hhost, hresp⟩ := appendSlot_frame ha
      exact .inr ⟨.tagged nk.round nk.key, rfl, by rw [respond_responses, hresp], hfault, hdin, hhost⟩
  | invall =>
    rcases execInvall_cases h with ⟨h0, rfl⟩ | ⟨cur, last, u, -, hu, -, rfl⟩
    · exact .inl ⟨_, .noKey (.inr (.inl rfl)) h0, rfl⟩
    · obtain ⟨-, -, hfault, hdin, hhost, hresp⟩ := invertTimes_frame hu
      exact .inr ⟨.tagged last.round last.key, rfl, by rw [respond_responses, hresp], hfault, hdin, hhost⟩
  | rdsch n =>
    rcases execRdsch_cases h with ⟨hn, rfl⟩ | ⟨rk, -, rfl⟩
    · exact .inl ⟨_, .index hn, rfl⟩
    · exact .inr ⟨_, rfl, rfl, rfl, rfl, rfl⟩
  | rdlast =>
    rcases execRdlast_cases h with ⟨h0, rfl⟩ | ⟨rk, -, rfl⟩
    · exact .inl ⟨_, .noKey (.inr (.inr rfl)) h0, rfl⟩
    · exact .inr ⟨_, rfl, rfl, rfl, rfl, rfl⟩
  | stat => rcases execStat_cases h with ⟨-, rfl⟩ | ⟨cur, -, rfl⟩ <;> exact .inr ⟨_, rfl, rfl, rfl, rfl, rfl⟩
  | rotw =>
    cases h
    exact .inr ⟨_, rfl, rfl, rfl, rfl, rfl⟩
  | subw =>
    cases h
    exact .inr ⟨_, rfl, rfl, rfl, rfl, rfl⟩
  | addrc n =>
    rcases execAddrc_cases h with ⟨hn, rfl⟩ | ⟨hn, rfl⟩
    · exact .inr ⟨_, rfl, rfl, rfl, rfl, rfl⟩
    · exact .inl ⟨_, .roundRange (by simp only [BadRound]; omega), rfl⟩
  | gword n =>
    rcases execGword_cases h with ⟨hn, rfl⟩ | ⟨hn, rfl⟩
    · exact .inr ⟨_, rfl, rfl, rfl, rfl, rfl⟩
    · exact .inl ⟨_, .roundRange (by simp only [BadRound]; omega), rfl⟩

/-- The response recorded last is the one answered. -/
theorem Answered.getLast? {r : Response} {s t : State} (h : Answered r s t) : t.responses.getLast? = some r := by
  rw [h.responses, List.getLast?_concat]

/-- A command's last response reports a fault exactly when that fault applies. -/
theorem exec_reports_iff {i : Instr} {s t : State} (h : exec i s = .next t) (c : FaultCode) :
    t.responses.getLast? = some (.bare (.raised c)) ↔ FaultApplies i s c := by
  constructor
  · intro hlast
    rcases exec_faults_or_completes h with ⟨c', happlies, rfl⟩ | ⟨r, hok, hr⟩
    · rw [(answered_raiseFault c' s).getLast?] at hlast
      cases hlast
      exact happlies
    · rw [hr.getLast?] at hlast
      cases hlast
      cases hok
  · intro happlies
    rw [exec_of_faultApplies happlies] at h
    cases h
    exact (answered_raiseFault c s).getLast?

/-- A response that is no fault has status OK (R51). -/
theorem status_of_not_isFault {r : Response} (h : r.isFault = false) : r.status = .ok := by
  cases r with
  | bare st =>
    cases st with
    | ok => rfl
    | raised c => cases h
  | data dout => rfl
  | tagged rtag dout => rfl

section
variable {i : Instr} {s t : State} {r : Response} (h : exec i s = .next t) (hr : Answered r s t)
include h hr

/-- The status of a command's response is the fault that applies (R100). -/
theorem status_of_faultApplies {c : FaultCode} (hc : FaultApplies i s c) : r.status = .raised c := by
  obtain rfl : r = .bare (.raised c) := Option.some.inj (hr.getLast?.symm.trans ((exec_reports_iff h c).mpr hc))
  rfl

/-- The status of a command's response is OK when no fault applies (R100). -/
theorem status_of_no_fault (hnone : ∀ c, ¬ FaultApplies i s c) : r.status = .ok := by
  rcases exec_faults_or_completes h with ⟨c, hc, -⟩ | ⟨r', hok, hr'⟩
  · exact absurd hc (hnone c)
  · obtain rfl : r = r' := Option.some.inj (hr.getLast?.symm.trans hr'.getLast?)
    exact status_of_not_isFault hok

end

/-! Every command is answered -/

/-- Under the schedule invariant every command ends in a next state (R115). -/
theorem exec_next_of_scheduleInv {s : State} (hs : ScheduleInv s) (i : Instr) : ∃ t, exec i s = .next t := by
  by_cases hfault : ∃ c, FaultApplies i s c
  · obtain ⟨c, hc⟩ := hfault
    exact ⟨_, exec_of_faultApplies hc⟩
  have hround : ¬ BadRound i := fun hbad => hfault ⟨_, .roundRange hbad⟩
  have hkey (hi : i = .invrk ∨ i = .invall ∨ i = .rdlast) : s.len.val ≠ 0 := fun h0 => hfault ⟨_, .noKey hi h0⟩
  cases i with
  | ldkey n => exact ⟨_, exec_ldkey_of_le s (Nat.not_lt.mp hround)⟩
  | invrk =>
    obtain ⟨cur, hc⟩ := currentKey_isSome hs.1 (hkey (.inl rfl))
    have hpos : 1 ≤ cur.round.val := Nat.pos_of_ne_zero fun h0 => hfault ⟨_, .roundZero hc (Fin.ext h0)⟩
    obtain ⟨nk, u, hp, ha, -⟩ := appendPredecessor_of_pos hs hc hpos
    exact ⟨_, exec_invrk_of_appendSlot hc hp ha⟩
  | invall =>
    obtain ⟨cur, hc⟩ := currentKey_isSome hs.1 (hkey (.inr (.inl rfl)))
    obtain ⟨u, last, -, -, -, -, hexec⟩ := exec_invall_completes hs hc
    exact ⟨_, hexec⟩
  | rdsch n =>
    have hn : n < s.len.val := Nat.lt_of_not_le fun hle => hfault ⟨_, .index hle⟩
    obtain ⟨rk, hrk⟩ := readSlot_isSome hs.1 hn
    exact ⟨_, exec_rdsch_of_readSlot hn hrk⟩
  | rdlast =>
    obtain ⟨rk, -, hexec, -⟩ := rdlastAnswersCurrentKey s (Nat.pos_of_ne_zero (hkey (.inr (.inr rfl)))) hs
    exact ⟨_, hexec⟩
  | stat =>
    by_cases h0 : s.len.val = 0
    · exact ⟨_, exec_stat_of_len_zero h0⟩
    · obtain ⟨cur, hc⟩ := currentKey_isSome hs.1 h0
      exact ⟨_, exec_stat_of_currentKey hc⟩
  | rotw => exact ⟨_, exec_rotw s⟩
  | subw => exact ⟨_, exec_subw s⟩
  | addrc n => exact ⟨_, exec_addrc_of_range s (by simp only [BadRound] at hround; omega)⟩
  | gword n => exact ⟨_, exec_gword_of_range s (by simp only [BadRound] at hround; omega)⟩

/-- Under the schedule invariant every transaction ends in a next state (R115). -/
theorem transaction_next_of_scheduleInv {s : State} (hs : ScheduleInv s) (cmd : BitVec 8) (din : Key) :
    ∃ t, transaction cmd din s = .next t := by
  cases hd : decode cmd with
  | command i =>
    obtain ⟨t, ht⟩ := exec_next_of_scheduleInv (s := { s with din := din }) (scheduleInv_congr rfl rfl hs) i
    exact ⟨t, (transaction_of_command hd din s).trans ht⟩
  | illegal e => exact ⟨_, transaction_of_illegal hd din s⟩

/-- Settles O24: the invariant leaves no way for a transaction to stop, and each keeps it and answers once. -/
theorem everyCommandWordAnswered : Obligations.EveryCommandWordAnswered := by
  intro s cmd din hs
  obtain ⟨t, ht⟩ := transaction_next_of_scheduleInv hs.1 cmd din
  obtain ⟨r, hr⟩ := transaction_answered ht
  exact ⟨t, r, ht, hr.responses, transaction_blockInv hs ht⟩

/-! What a fault changes, and when each is raised -/

/-- Settles O25: a word that selects no command faults, and a command faults or completes. -/
theorem faultChangesOnlyFault : Obligations.FaultChangesOnlyFault := by
  intro s t cmd din h
  rcases transaction_cases h with ⟨i, -, hexec⟩ | ⟨e, -, rfl⟩
  · rcases exec_faults_or_completes hexec with ⟨c, -, rfl⟩ | ⟨r, hok, hr⟩
    · exact .inl ⟨c, rfl⟩
    · have hstatus := status_of_not_isFault hok
      exact .inr ⟨r, hr.responses, hstatus, by rw [hstatus]; rfl, by rw [hr.fault, hok, Bool.false_or]⟩
  · exact .inl ⟨_, rfl⟩

/-- Settles O32: of the faults that can apply to a command, ROUND_RANGE is the one for a bad round operand. -/
theorem roundRangeFaults : Obligations.RoundRangeFaults := by
  refine ⟨rfl, fun i s => ⟨fun hbad => exec_of_badRound hbad s, fun t hround h hlast => ?_⟩⟩
  cases (exec_reports_iff h _).mp hlast with
  | roundRange hbad => exact hround hbad

/-- Only a successful LDKEY makes LEN non-zero, and no command makes it 0 (R104). -/
theorem exec_len_ne_zero {i : Instr} {s t : State} (h : exec i s = .next t) :
    (s.len.val ≠ 0 → t.len.val ≠ 0) ∧ (s.len.val = 0 → t.len.val ≠ 0 → ∃ n, n ≤ 10 ∧ i = .ldkey n) := by
  cases exec_effect h with
  | faults c ht => exact ht ▸ ⟨id, fun h0 hne => absurd h0 hne⟩
  | answers r hr ht => exact ht ▸ ⟨id, fun h0 hne => absurd h0 hne⟩
  | loads n hi hn ht => exact ht ▸ ⟨fun _ => Nat.one_ne_zero, fun _ _ => ⟨n, hn, hi⟩⟩
  | inverts cur last count u hc hu hl ht =>
    have hpos := len_pos_of_currentKey hc
    obtain ⟨hlen, -⟩ := invertTimes_frame hu
    exact ht ▸ ⟨fun _ => by rw [respond_len]; omega, fun h0 => by omega⟩

/-- Settles O33: of the faults that can apply to a command, NO_KEY is the one for LEN = 0. -/
theorem noKeyFaults : Obligations.NoKeyFaults := by
  refine ⟨rfl, rfl, fun i s hi h0 => exec_of_faultApplies (.noKey hi h0), fun i s t h hlast => ?_,
    fun i s t h => exec_len_ne_zero h⟩
  cases (exec_reports_iff h _).mp hlast with
  | noKey hi hlen => exact ⟨hi, hlen⟩

/-- Settles O34: of the faults that can apply to a command, ROUND_ZERO is the one for a current round 0, at which INVALL's loop
runs no time and leaves the current key to be answered. -/
theorem roundZeroFaults : Obligations.RoundZeroFaults := by
  refine ⟨rfl, fun s cur hc hr => ⟨exec_of_faultApplies (.roundZero hc hr), ?_⟩, fun i s t h hlast => ?_⟩
  · have hloop : invertTimes cur.round.val s = some s := by rw [hr]; rfl
    exact hr ▸ exec_invall_of_invertTimes hc hloop hc
  · cases (exec_reports_iff h _).mp hlast with
    | roundZero hc hr => exact ⟨rfl, len_pos_of_currentKey hc, _, hc, hr⟩

/-- Settles O35: of the faults that can apply to a command, INDEX is the one for a position at or above LEN. -/
theorem indexFaults : Obligations.IndexFaults := by
  refine ⟨rfl, fun n s hn => exec_of_faultApplies (.index hn), fun i s t h hlast => ?_⟩
  cases (exec_reports_iff h _).mp hlast with
  | index hn => exact ⟨_, rfl, hn⟩

/-! The conditions by the command word -/

/-- The opcode is the upper hex digit of the command word (R50). -/
theorem opcodeField_eq_div (cmd : BitVec 8) : opcodeField cmd = cmd.toNat / 16 := by
  have := cmd.isLt
  simp only [opcodeField, BitVec.extractLsb'_toNat, Nat.shiftRight_eq_div_pow]
  omega

/-- The operand is the lower hex digit of the command word (R50). -/
theorem operandField_eq_mod (cmd : BitVec 8) : operandField cmd = cmd.toNat % 16 := by
  simp [operandField, BitVec.extractLsb'_toNat]

/-- A word that decodes has its command's opcode and operand as its two hex digits (R50, R52). -/
theorem digits_of_decode {cmd : BitVec 8} {i : Instr} (h : decode cmd = .command i) :
    cmd.toNat / 16 = i.opcode.toNat ∧ cmd.toNat % 16 = i.operand := by
  rw [← opcodeField_eq_div, ← operandField_eq_mod]
  exact fields_of_decode h

/-- A word that selects a command is not illegal (R102). -/
theorem not_illegalWord_of_command {cmd : BitVec 8} {i : Instr} (h : decode cmd = .command i) : ¬ IllegalWord cmd := by
  obtain ⟨hopc, hn⟩ := digits_of_decode h
  rw [IllegalWord, hopc, hn]
  cases i <;> simp [Instr.opcode, Instr.operand]

/-- A must-be-zero command is refused for a non-zero operand alone (R57). -/
theorem operand_ne_zero_of_mustBeZero_eq_illegal {n : Nat} {i : Instr} {e : DecodeError} (h : mustBeZero n i = .illegal e) :
    n ≠ 0 := by
  rintro rfl
  cases h

/-- A word that selects no command is illegal (R56, R57, R102). -/
theorem illegalWord_of_illegal {cmd : BitVec 8} {e : DecodeError} (h : decode cmd = .illegal e) : IllegalWord cmd := by
  have hlt := cmd.isLt
  have hzero {i : Instr} (hm : mustBeZero (operandField cmd) i = .illegal e)
      (hopc : cmd.toNat / 16 ∈ [0x2, 0x3, 0x5, 0x6, 0x8, 0x9]) : IllegalWord cmd :=
    .inr ⟨hopc, operandField_eq_mod cmd ▸ operand_ne_zero_of_mustBeZero_eq_illegal hm⟩
  unfold decode at h
  rw [opcodeField_eq_div] at h
  split at h
  · cases h
  · next hopc => exact hzero h (by simp [hopc])
  · next hopc => exact hzero h (by simp [hopc])
  · cases h
  · next hopc => exact hzero h (by simp [hopc])
  · next hopc => exact hzero h (by simp [hopc])
  · next hopc => exact hzero h (by simp [hopc])
  · next hopc => exact hzero h (by simp [hopc])
  · cases h
  · cases h
  · refine .inl ?_
    simp only [List.mem_cons, List.not_mem_nil, or_false]
    simp only [imp_false] at *
    omega

/-- Settles O31: the illegal words are the ones that select no command, and ILLEGAL_CMD applies to no command. -/
theorem illegalCommandFaults : Obligations.IllegalCommandFaults := by
  refine ⟨rfl, fun s cmd din => ⟨fun hword => ?_, fun t hword h hlast => ?_⟩⟩
  · cases hd : decode cmd with
    | command i => exact absurd hword (not_illegalWord_of_command hd)
    | illegal e => exact transaction_of_illegal hd din s
  · rcases transaction_cases h with ⟨i, -, hexec⟩ | ⟨e, he, -⟩
    · cases (exec_reports_iff hexec _).mp hlast
    · exact hword (illegalWord_of_illegal he)

section
variable {cmd : BitVec 8} {i : Instr} (hd : decode cmd = .command i)
include hd

/-- A word has a bad round operand when its command has (R103). -/
theorem badRoundWord_iff : BadRoundWord cmd ↔ BadRound i := by
  obtain ⟨hopc, hn⟩ := digits_of_decode hd
  rw [BadRoundWord, hopc, hn]
  cases i <;> simp [Instr.opcode, Instr.operand, BadRound]

/-- A word is that of a well-formed command exactly when it decodes to it (R52). -/
theorem toNat_eq_encode_iff {j : Instr} (hj : j.WellFormed) : cmd.toNat = (encode j).toNat ↔ i = j := by
  rw [← BitVec.toNat_eq]
  refine ⟨fun he => ?_, fun he => ?_⟩
  · rw [he, decode_encode hj] at hd
    exact (Decoded.command.inj hd).symm
  · rw [← he, encode_of_decode hd]

/-- The word 0x20 is INVRK's (R52). -/
theorem invrkWord_iff : cmd.toNat = 0x20 ↔ i = .invrk :=
  toNat_eq_encode_iff hd (j := .invrk) trivial

/-- The words 0x20, 0x30 and 0x50 are those of the commands that need a key (R52, R104). -/
theorem needsKeyWord_iff : cmd.toNat ∈ [0x20, 0x30, 0x50] ↔ i = .invrk ∨ i = .invall ∨ i = .rdlast := by
  simp only [List.mem_cons, List.not_mem_nil, or_false]
  exact or_congr (invrkWord_iff hd)
    (or_congr (toNat_eq_encode_iff hd (j := .invall) trivial) (toNat_eq_encode_iff hd (j := .rdlast) trivial))

/-- The words with opcode 4 are those of RDSCH, with the position in the operand field (R52, R106). -/
theorem indexWord_iff {len : Nat} :
    cmd.toNat / 16 = 0x4 ∧ len ≤ cmd.toNat % 16 ↔ ∃ n, i = .rdsch n ∧ len ≤ n := by
  obtain ⟨hopc, hn⟩ := digits_of_decode hd
  rw [hopc, hn]
  cases i <;> simp [Instr.opcode, Instr.operand]

end

/-- The current round is 0 when the current key has round 0. -/
theorem currentKey_round_eq_zero_iff {s : State} :
    (currentKey s).map (·.round.val) = some 0 ↔ ∃ cur, currentKey s = some cur ∧ cur.round = 0 := by
  simp only [Option.map_eq_some_iff, Fin.val_eq_zero_iff]

/-- Settles O36: a condition that holds lets its fault apply to the word's command, which then reports it; when no condition
holds no fault applies, and the command completes. -/
theorem faultPriority : Obligations.FaultPriority := by
  intro s cmd din hs
  obtain ⟨t, ht⟩ := transaction_next_of_scheduleInv hs cmd din
  rcases transaction_cases ht with ⟨i, hd, hexec⟩ | ⟨e, he, rfl⟩
  · obtain ⟨r, hr⟩ := exec_answered hexec
    refine ⟨t, r, ht, hr.responses, ?_⟩
    rw [if_neg (not_illegalWord_of_command hd)]
    split
    · next hbad => exact status_of_faultApplies hexec hr (.roundRange ((badRoundWord_iff hd).mp hbad))
    next hbad =>
    split
    · next hkey => exact status_of_faultApplies hexec hr (.noKey ((needsKeyWord_iff hd).mp hkey.1) hkey.2)
    next hkey =>
    split
    · next hindex =>
      obtain ⟨n, rfl, hn⟩ := (indexWord_iff hd).mp hindex
      exact status_of_faultApplies hexec hr (.index hn)
    next hindex =>
    split
    · next hzero =>
      obtain rfl := (invrkWord_iff hd).mp hzero.1
      obtain ⟨cur, hc, hround⟩ := currentKey_round_eq_zero_iff.mp hzero.2
      exact status_of_faultApplies hexec hr (.roundZero hc hround)
    next hzero =>
    refine status_of_no_fault hexec hr fun c happlies => ?_
    cases happlies with
    | roundRange h => exact hbad ((badRoundWord_iff hd).mpr h)
    | noKey hi hlen => exact hkey ⟨(needsKeyWord_iff hd).mpr hi, hlen⟩
    | index hn => exact hindex ((indexWord_iff hd).mpr ⟨_, rfl, hn⟩)
    | roundZero hc hround =>
      exact hzero ⟨(invrkWord_iff hd).mpr rfl, currentKey_round_eq_zero_iff.mpr ⟨_, hc, hround⟩⟩
  · exact ⟨_, _, ht, rfl, (if_pos (illegalWord_of_illegal he)).symm⟩

/-! Idling -/

/-- Settles O54: with no action to come the step is to the same state. -/
theorem blockIdlesBetweenCommands : Obligations.BlockIdlesBetweenCommands :=
  fun _ h => step_of_idle h

end Sys2Proof.Machine
end

section
/-!
SUPPORT. Runs from reset (70_reset_and_hazards.md R128), and what a port cycle does to a block that is reset, that accepts a
command, or that has one in progress (R120 to R126, R129): O30 and O57 to O60.
-/
namespace Sys2Proof.Machine

/-! Runs of commands -/

/-- A run of at least one command that ends in a next state is its first transaction and the run of the others. -/
theorem runCommands_cons {cmd : BitVec 8} {din : Key} {rest : List (BitVec 8 × Key)} {s t : State}
    (h : runCommands ((cmd, din) :: rest) s = .next t) :
    ∃ u, transaction cmd din s = .next u ∧ runCommands rest u = .next t := by
  rw [runCommands] at h
  split at h
  · next u hu => exact ⟨u, hu, h⟩
  · cases h
  · cases h

/-- A run from a reachable state ends in a reachable state (R25, R128). -/
theorem reachable_of_runCommands : ∀ {commands : List (BitVec 8 × Key)} {s t : State}, Reachable s →
    runCommands commands s = .next t → Reachable t
  | [], s, t, hs, h => by
    cases h
    exact hs
  | (cmd, din) :: rest, s, t, hs, h => by
    obtain ⟨u, hu, hrest⟩ := runCommands_cons h
    exact reachable_of_runCommands (hs.command cmd din hu) hrest

/-- A run adds one response for each of its commands (R128). -/
theorem runCommands_responses_length : ∀ {commands : List (BitVec 8 × Key)} {s t : State},
    runCommands commands s = .next t → t.responses.length = s.responses.length + commands.length
  | [], s, t, h => by
    cases h
    rfl
  | (cmd, din) :: rest, s, t, h => by
    obtain ⟨u, hu, hrest⟩ := runCommands_cons h
    obtain ⟨r, hr⟩ := transaction_answered hu
    have hlen := runCommands_responses_length hrest
    simp only [hr.responses, List.length_append, List.length_singleton] at hlen
    rw [hlen, List.length_cons]
    omega

/-- A response has status OK exactly when it is no fault (R51, R100). -/
theorem isFault_eq_false_iff {r : Response} : r.isFault = false ↔ r.status = .ok := by
  refine ⟨status_of_not_isFault, fun h => ?_⟩
  cases r with
  | bare st =>
    cases h
    rfl
  | data dout => rfl
  | tagged rtag dout => rfl

/-- With FAULT the record of the faults answered, it is 0 exactly when every status is OK (R19, R128). -/
theorem fault_eq_false_iff {s : State} (h : FaultInv s) : s.fault = false ↔ ∀ r ∈ s.responses, r.status = .ok := by
  simp only [h, List.any_eq_false, Bool.not_eq_true, isFault_eq_false_iff]

/-- Settles O30: each command adds a response to the empty record, and the reachable state at the end meets the invariant. -/
theorem runWithoutFaults : Obligations.RunWithoutFaults := by
  intro commands t h
  obtain ⟨-, hfault⟩ := reachableStatesMeetInvariant t (reachable_of_runCommands .reset h)
  exact ⟨(runCommands_responses_length h).trans (Nat.zero_add _), fault_eq_false_iff hfault⟩

/-! A command accepted at the ports -/

/-- The cycle that accepts a command makes the block busy until LATENCY cycles later (R123). -/
theorem busy_of_accepts {p q : PortState} {i : PortIn} (ha : accepts p i = true) (h : cycle p i = .next q) :
    q.busy = some (latency i.cmd (currentRound p.block) - 1) := by
  obtain ⟨hvalid, hidle, hrst⟩ := accepts_iff.mp ha
  rcases cycle_cases h with ⟨-, hr, -⟩ | ⟨left, hb, -⟩ | ⟨hb, -⟩ | ⟨t, -, -, -, rfl⟩ | ⟨-, hv, -⟩
  · simp [hrst] at hr
  · simp [hidle] at hb
  · simp [hidle] at hb
  · rfl
  · simp [hvalid] at hv

/-- The latency looks at the current round for the word of INVALL alone (R126). -/
theorem latency_congr {cmd : BitVec 8} {round round' : Option Round} (h : cmd = 0x30 → round' = round) :
    latency cmd round' = latency cmd round := by
  by_cases hc : cmd = 0x30
  · rw [h hc]
  · simp only [latency, hc, if_false]

/-- Settles O58: each port is busy for the latency, which the command word and INVALL's round tag fix. -/
theorem latencyIndependentOfData : Obligations.LatencyIndependentOfData := by
  intro p p' q q' i i' ha ha' hcmd hround h h'
  rw [busy_of_accepts ha h, busy_of_accepts ha' h', hcmd, latency_congr hround]

/-! The port invariant -/

/-- A transaction records a response. -/
theorem transaction_responses_ne_nil {cmd : BitVec 8} {din : Key} {s t : State} (h : transaction cmd din s = .next t) :
    t.responses ≠ [] := by
  obtain ⟨r, hr⟩ := transaction_answered h
  simp [hr.responses]

/-- Settles O59: a reset block and a transaction meet the block's invariant, and a block becomes busy by a transaction alone. -/
theorem cycleKeepsPortInvariant : Obligations.CycleKeepsPortInvariant := by
  intro p q i ⟨hblock, hresponse⟩ h
  rcases cycle_cases h with ⟨-, -, rfl⟩ | ⟨left, hb, rfl⟩ | ⟨-, rfl⟩ | ⟨t, -, -, ht, rfl⟩ | ⟨-, -, rfl⟩
  · exact ⟨resetBlock_blockInv p.block, fun hbusy => absurd rfl hbusy⟩
  · exact ⟨hblock, fun _ => hresponse (by simp [hb])⟩
  · exact ⟨hblock, fun hbusy => absurd rfl hbusy⟩
  · exact ⟨transaction_blockInv hblock ht, fun _ => transaction_responses_ne_nil ht⟩
  · exact ⟨hblock, hresponse⟩

/-! A command in progress -/

/-- While a command is in progress the block is not ready (R123). -/
theorem cmdReady_of_busy {p : PortState} (h : p.busy ≠ none) (i : PortIn) : cmdReady p i = false := by
  simp [cmdReady, h]

/-- Settles O57: a busy block is not ready, and its cycle counts down or ends the response. -/
theorem oneCommandAtATime : Obligations.OneCommandAtATime := by
  intro p q i hbusy h
  have hready := cmdReady_of_busy hbusy i
  refine ⟨hready, by rw [accepts, hready, Bool.and_false], ?_⟩
  rcases cycle_cases h with ⟨hb, -⟩ | ⟨left, -, rfl⟩ | ⟨-, rfl⟩ | ⟨t, hb, -⟩ | ⟨hb, -⟩
  · exact absurd hb hbusy
  · rfl
  · rfl
  · exact absurd hb hbusy
  · exact absurd hb hbusy

/-! Reset at the ports -/

/-- A reset cycle of an idle block resets it (R120). -/
theorem cycle_of_reset_idle {p : PortState} {i : PortIn} (hr : i.rst = true) (hb : p.busy = none) :
    cycle p i = .next { block := resetBlock p.block, busy := none, cycle := p.cycle + 1 } := by
  simp only [cycle, hr, hb]

/-- A reset cycle of a busy block is refused (R129, U9). -/
theorem cycle_of_reset_busy {p : PortState} {i : PortIn} (hr : i.rst = true) (hb : p.busy ≠ none) :
    cycle p i = .refused .resetMidCommand := by
  obtain ⟨left, hleft⟩ := Option.ne_none_iff_exists'.mp hb
  simp only [cycle, hr, hleft]

/-- Settles O60: an idle block is reset, with LEN 0 and so no valid slot, and stays idle; a busy one is refused the reset. -/
theorem resetAtPorts : Obligations.ResetAtPorts := by
  intro p i hr
  refine ⟨fun hb => ⟨_, cycle_of_reset_idle hr hb, rfl, rfl, fun k => readSlot_of_le (Nat.zero_le k), fun j hj => ?_⟩,
    cycle_of_reset_busy hr⟩
  simp [outputs, cmdReady, hj]

end Sys2Proof.Machine
end

section
/-!
SUPPORT. What the two tables hold (20_memory.md R32 to R34): each round constant doubles the one before, and each S-box
entry gives the inverse of its input back through the affine map (O7, O8, O9).
-/
namespace Sys2Proof.Machine

/-! The round constants -/

/-- Each round constant from 2 to 10 is the double of the one before (R34). -/
theorem rcon_succ_succ : ∀ (k : Nat) (h : k < 9), rcon ⟨k + 2, by omega⟩ = gfDouble (rcon ⟨k + 1, by omega⟩) := by
  decide

/-- Settles O9: the doubling holds at each of the nine places of the table that have a next one. -/
theorem roundConstantsDouble : Obligations.RoundConstantsDouble := by
  refine ⟨rfl, fun r h => ?_, rfl⟩
  obtain ⟨k, rfl⟩ : ∃ k, r = k + 1 := Nat.exists_eq_add_of_le' h.1
  exact rcon_succ_succ k (by omega)

/-! Rotation of a byte -/

theorem rotateLeft_xor (x y : Byte) (k : Nat) : (x ^^^ y).rotateLeft k = x.rotateLeft k ^^^ y.rotateLeft k := by
  ext i hi
  simp only [BitVec.getElem_xor, BitVec.getElem_rotateLeft]
  split <;> rfl

/-- A bit of a rotated byte comes from `k` places below, counted round the byte. -/
theorem getElem_rotateLeft_eq_mod (x : Byte) (k : Nat) {i : Nat} (hi : i < 8) :
    (x.rotateLeft k)[i] = x[(i + (8 - k % 8)) % 8]'(Nat.mod_lt _ (by decide)) := by
  rw [BitVec.getElem_rotateLeft]
  split <;> congr 1 <;> omega

theorem rotateLeft_rotateLeft (x : Byte) (j k : Nat) : (x.rotateLeft j).rotateLeft k = x.rotateLeft ((j + k) % 8) := by
  ext i hi
  simp only [getElem_rotateLeft_eq_mod]
  congr 1
  omega

theorem rotateLeft_zero (x : Byte) : x.rotateLeft 0 = x := by
  ext i hi
  simp only [getElem_rotateLeft_eq_mod]
  congr 1
  omega

/-! The affine map -/

/-- The affine map of the S-box undone (R32). -/
def sboxAffineInv (s : Byte) : Byte :=
  s.rotateLeft 1 ^^^ s.rotateLeft 3 ^^^ s.rotateLeft 6 ^^^ 0x05

/-- The rotations by 0 to 4 of those by 1, 3 and 6 are each rotation by 1 to 7 twice, which cancels, and the byte itself
once; the constants cancel likewise. -/
theorem sboxAffine_sboxAffineInv (s : Byte) : sboxAffine (sboxAffineInv s) = s := by
  simp only [sboxAffine, sboxAffineInv, rotateLeft_xor, rotateLeft_rotateLeft, Nat.reduceAdd, Nat.reduceMod, rotateLeft_zero]
  generalize s.rotateLeft 1 = r1, s.rotateLeft 2 = r2, s.rotateLeft 3 = r3, s.rotateLeft 4 = r4, s.rotateLeft 5 = r5,
    s.rotateLeft 6 = r6, s.rotateLeft 7 = r7
  calc
    _ = s ^^^ (r1 ^^^ r1) ^^^ (r2 ^^^ r2) ^^^ (r3 ^^^ r3) ^^^ (r4 ^^^ r4) ^^^ (r5 ^^^ r5) ^^^ (r6 ^^^ r6) ^^^
        (r7 ^^^ r7) ^^^ sboxAffine 0x05 := by
      rw [sboxAffine]
      ac_rfl
    _ = s := by
      have hconst : sboxAffine 0x05 = 0#8 := by decide
      simp only [BitVec.xor_self, BitVec.xor_zero, hconst]

/-! The entries of the S-box -/

/-- What holds along the table, of each place and its entry, holds of each byte and its entry (R31). -/
theorem sbox_of_forall_zipIdx {R : Byte → Byte → Prop}
    (h : ∀ p ∈ sboxTable.zipIdx, R (BitVec.ofNat 8 p.2) p.1) (a : Byte) : R a (sbox a) := by
  have hentry : (sbox a, a.toNat) ∈ sboxTable.zipIdx :=
    List.mem_zipIdx_iff_getElem?.mpr (sboxIndexedByByteValue a).1
  simpa only [BitVec.ofNat_toNat, BitVec.setWidth_eq] using h _ hentry

/-- No entry of the table is its place or its place's complement (R33). -/
theorem sboxTable_ne_place : ∀ p ∈ sboxTable.zipIdx,
    p.1 ≠ BitVec.ofNat 8 p.2 ∧ p.1 ≠ BitVec.ofNat 8 p.2 ^^^ 0xFF := by
  decide +kernel

/-- With the affine map undone, each entry is its place's inverse in GF(2^8), and 0 at the place 0 (R32). -/
theorem sboxTable_inverse : ∀ p ∈ sboxTable.zipIdx,
    if BitVec.ofNat 8 p.2 = 0 then sboxAffineInv p.1 = 0 else gfMul 8 (BitVec.ofNat 8 p.2) (sboxAffineInv p.1) = 1 := by
  decide +kernel

/-- Settles O7: every byte is an entry, and of 256 entries none can then occur twice; the table holds no byte at its own or at
its complement's place. -/
theorem sboxBijective : Obligations.SboxBijective :=
  ⟨fun _ _ h => sbox_injective h, sbox_surjective,
    sbox_of_forall_zipIdx (R := fun a s => s ≠ a ∧ s ≠ a ^^^ 0xFF) sboxTable_ne_place⟩

/-- Settles O8: the inverse is the entry with the affine map undone, so the entry is the inverse's affine map. -/
theorem sboxIsAffineOfInverse : Obligations.SboxIsAffineOfInverse :=
  fun a => ⟨sboxAffineInv (sbox a),
    sbox_of_forall_zipIdx (R := fun a s => if a = 0 then sboxAffineInv s = 0 else gfMul 8 a (sboxAffineInv s) = 1)
      sboxTable_inverse a,
    (sboxAffine_sboxAffineInv (sbox a)).symm⟩

end Sys2Proof.Machine
end

section
/-!
SUPPORT. The classes of the 256 command words (30_encoding.md R59): the decoder's class of a word is the table's at its two
digits, and the words that select a row of the opcode table are those that decode (O4).
-/
namespace Sys2Proof.Machine

/-! The class of a word -/

/-- A word that selects no command is in the class of the illegal words (R59). -/
theorem decodedClass_of_illegal {cmd : BitVec 8} {e : DecodeError} (h : decode cmd = .illegal e) :
    decodedClass cmd = .illegalCmd := by
  simp only [decodedClass, h]

/-- One test for the round operands that are out of range, or the table's two tests in turn (R58, R59). -/
theorem ite_badRound_eq (n : Nat) : (if n = 0 ∨ 10 < n then WordClass.roundRange else .command) =
    if n = 0 then .roundRange else if n ≤ 10 then .command else .roundRange := by
  grind

/-- A word that selects a command is in the table's class at the command's opcode and operand (R58, R59). -/
theorem decodedClass_of_command {cmd : BitVec 8} {i : Instr} (h : decode cmd = .command i) :
    decodedClass cmd = tableClass i.opcode.toNat i.operand := by
  simp only [decodedClass, h]
  cases i with
  | ldkey n =>
    simp only [← Nat.not_le, ite_not]
    rfl
  | addrc n | gword n => exact ite_badRound_eq n
  | invrk | invall | rdsch n | rdlast | stat | rotw | subw => rfl

/-- A word that selects a command is not in the class of the illegal words (R59). -/
theorem decodedClass_ne_illegalCmd {cmd : BitVec 8} {i : Instr} (h : decode cmd = .command i) :
    decodedClass cmd ≠ .illegalCmd := by
  cases i <;> simp only [decodedClass, h] <;> grind

/-- The words in the class of the illegal words are those that select no command (R59). -/
theorem decodedClass_eq_illegalCmd_iff {cmd : BitVec 8} :
    decodedClass cmd = .illegalCmd ↔ ∀ i, decode cmd ≠ .command i := by
  cases hd : decode cmd with
  | command i => simp [decodedClass_ne_illegalCmd hd]
  | illegal e => simp [decodedClass_of_illegal hd]

/-- The table has the illegal words at a reserved opcode, and at a non-zero operand that must be 0 (R56, R57, R59). -/
theorem tableClass_of_illegalWord {cmd : BitVec 8} (h : IllegalWord cmd) :
    tableClass (cmd.toNat / 16) (cmd.toNat % 16) = .illegalCmd := by
  simp only [IllegalWord, List.mem_cons, List.not_mem_nil, or_false] at h
  obtain (hopc | hopc | hopc | hopc | hopc | hopc) | ⟨hopc | hopc | hopc | hopc | hopc | hopc, hn⟩ := h <;>
    simp only [hopc, tableClass]
  all_goals exact if_neg hn

/-- The decoder's class of a word is the table's at the word's two digits (R59). -/
theorem decodedClass_eq_tableClass (cmd : BitVec 8) :
    decodedClass cmd = tableClass (cmd.toNat / 16) (cmd.toNat % 16) := by
  cases hd : decode cmd with
  | command i =>
    obtain ⟨hopc, hn⟩ := digits_of_decode hd
    rw [decodedClass_of_command hd, hopc, hn]
  | illegal e => rw [decodedClass_of_illegal hd, tableClass_of_illegalWord (illegalWord_of_illegal hd)]

/-! Counting the words of a class -/

/-- The numbers below `m * k` are the `m` rows of `k` numbers each. -/
theorem range_mul_eq_flatMap (m k : Nat) :
    List.range (m * k) = (List.range m).flatMap fun i => (List.range k).map (i * k + ·) := by
  induction m with
  | zero => rw [Nat.zero_mul, List.range_zero, List.flatMap_nil]
  | succ m ih => rw [Nat.succ_mul, List.range_add, ih, List.range_succ, List.flatMap_append, List.flatMap_singleton]

/-- The command words, sixteen to each opcode (R50). -/
theorem allWords_eq_digits : allWords =
    (List.range 16).flatMap fun opc => (List.range 16).map fun n => BitVec.ofNat 8 (opc * 16 + n) := by
  simp only [allWords, range_mul_eq_flatMap 16 16, List.map_flatMap, List.map_map]
  rfl

/-- The words of a class are counted in the table, opcode by opcode (R59). -/
theorem countP_allWords (c : WordClass) : allWords.countP (fun cmd => decodedClass cmd = c) =
    ((List.range 16).map fun opc => (List.range 16).countP fun n => tableClass opc n = c).sum := by
  simp only [allWords_eq_digits, List.countP_flatMap]
  refine congrArg List.sum (List.map_congr_left fun opc hopc => ?_)
  rw [Function.comp_apply, List.countP_map]
  refine List.countP_congr fun n hn => ?_
  rw [List.mem_range] at hopc hn
  have hword : (BitVec.ofNat 8 (opc * 16 + n)).toNat = opc * 16 + n := Nat.mod_eq_of_lt (by omega)
  have hdiv : (opc * 16 + n) / 16 = opc := by omega
  have hmod : (opc * 16 + n) % 16 = n := by omega
  simp only [Function.comp_apply, decodedClass_eq_tableClass, hword, hdiv, hmod]

/-! The rows of the opcode table -/

/-- The word of a well-formed command selects a row of the opcode table (R52, R59). -/
theorem exists_row_of_wellFormed : ∀ {i : Instr}, i.WellFormed → ∃ row ∈ tableRows, SelectsRow (encode i) row
  | .ldkey n, h => ⟨.ldkey 0, by decide, (Laws.EncodesRow.ldkey n h).1⟩
  | .invrk, h => ⟨.invrk, by decide, (Laws.EncodesRow.invrk h).1⟩
  | .invall, h => ⟨.invall, by decide, (Laws.EncodesRow.invall h).1⟩
  | .rdsch n, h => ⟨.rdsch 0, by decide, (Laws.EncodesRow.rdsch n h).1⟩
  | .rdlast, h => ⟨.rdlast, by decide, (Laws.EncodesRow.rdlast h).1⟩
  | .stat, h => ⟨.stat, by decide, (Laws.EncodesRow.stat h).1⟩
  | .rotw, h => ⟨.rotw, by decide, (Laws.EncodesRow.rotw h).1⟩
  | .subw, h => ⟨.subw, by decide, (Laws.EncodesRow.subw h).1⟩
  | .addrc n, h => ⟨.addrc 0, by decide, (Laws.EncodesRow.addrc n h).1⟩
  | .gword n, h => ⟨.gword 0, by decide, (Laws.EncodesRow.gword n h).1⟩

/-- A word that matches an opcode under the mask 0xF0 holds that opcode, with any operand (R50, R59). -/
theorem commandWord_of_and_eq {cmd : BitVec 8} {opc : BitVec 4} (h : cmd &&& 0xF0 = commandWord opc 0) :
    commandWord opc (operandField cmd) = cmd := by
  have hopc : cmd.extractLsb' 4 4 = opc := by
    calc cmd.extractLsb' 4 4
        = (cmd &&& 0xF0).extractLsb' 4 4 := by
          rw [BitVec.extractLsb'_and]
          exact BitVec.and_allOnes.symm
      _ = (commandWord opc 0).extractLsb' 4 4 := by rw [h]
      _ = opc := (by decide : ∀ o : BitVec 4, (commandWord o 0).extractLsb' 4 4 = o) opc
  have hfields := commandWord_fields cmd
  rwa [opcodeField, hopc, BitVec.ofNat_toNat, BitVec.setWidth_eq] at hfields

/-- A word that selects a row of the opcode table is a command's (R52, R59). -/
theorem exists_encode_of_selectsRow {cmd : BitVec 8} {row : Instr} (h : SelectsRow cmd row) :
    ∃ i : Instr, i.WellFormed ∧ encode i = cmd := by
  have hfits := operandField_fits cmd
  have hword {m : BitVec 8} (hm : cmd &&& 0xFF = m) : m = cmd := hm.symm.trans BitVec.and_allOnes
  cases row with
  | ldkey n => exact ⟨.ldkey _, hfits, commandWord_of_and_eq h⟩
  | invrk => exact ⟨.invrk, trivial, hword h⟩
  | invall => exact ⟨.invall, trivial, hword h⟩
  | rdsch n => exact ⟨.rdsch _, hfits, commandWord_of_and_eq h⟩
  | rdlast => exact ⟨.rdlast, trivial, hword h⟩
  | stat => exact ⟨.stat, trivial, hword h⟩
  | rotw => exact ⟨.rotw, trivial, hword h⟩
  | subw => exact ⟨.subw, trivial, hword h⟩
  | addrc n => exact ⟨.addrc _, hfits, commandWord_of_and_eq h⟩
  | gword n => exact ⟨.gword _, hfits, commandWord_of_and_eq h⟩

/-- The words that select a row of the opcode table are those that select a command (R59). -/
theorem exists_selectsRow_iff {cmd : BitVec 8} :
    (∃ row ∈ tableRows, SelectsRow cmd row) ↔ ∃ i, decode cmd = .command i := by
  constructor
  · rintro ⟨row, -, hrow⟩
    obtain ⟨i, hi, rfl⟩ := exists_encode_of_selectsRow hrow
    exact ⟨i, decode_encode hi⟩
  · rintro ⟨i, hi⟩
    exact encode_of_decode hi ▸ exists_row_of_wellFormed (wellFormed_of_decode hi)

/-- Settles O4: a word's two digits fix its class, so the classes are counted in the table of 16 by 16; and no row is selected
exactly when no command is. -/
theorem commandWordsClassified : Obligations.CommandWordsClassified := by
  refine ⟨decodedClass_eq_tableClass, ?_, ?_, ?_, fun cmd => ?_⟩
  · rw [countP_allWords]
    decide
  · rw [countP_allWords]
    decide
  · rw [countP_allWords]
    decide
  · rw [decodedClass_eq_illegalCmd_iff, ← not_exists, ← exists_selectsRow_iff]
    simp only [not_exists, not_and]

end Sys2Proof.Machine
end
